-- ==== Sys2Proof/Word.lean ====
section
/-! DEFINITION. The machine's word types (00_scope.md R6, R9). Everything is unsigned (R8); nothing is sign-extended. -/

namespace Sys2Proof

/-- A byte: a general register, a timer, a memory cell, the immediate `kk` (R6: `XLEN`, `TLEN`, 8 bits). -/
abbrev Byte := BitVec 8

/-- A 16-bit value: the instruction word, `I`, `PC`, a call-stack slot (R6: `ILEN`, `PCLEN`, `STACK_WIDTH`). -/
abbrev Word := BitVec 16

/-- A 12-bit absolute address, the field `nnn` (30_encoding.md R72). -/
abbrev Addr12 := BitVec 12

/-- The number of a general register V0 to VF (10_state.md R21): every 4-bit field value names one. -/
abbrev Reg := Fin 16

/-- VF, register 15, which doubles as the flag register (10_state.md R22). -/
abbrev Reg.vf : Reg := 15

/-- A number of four bits used as a count: the sprite height `n` (30_encoding.md R72). -/
abbrev Height := Fin 16

end Sys2Proof
end

