-- ==== Sys2Proof/Syntax.lean ====
section
/-! DEFINITION. The instructions: one constructor per row of spec/opcode_table.json (30_encoding.md R76), in the
table's order. The operands are typed by their fields (R72), so every term is an instruction of the table; the bits
the decoder ignores (R75) are no operands. -/

namespace Sys2Proof

/-- The 26 instructions of 30_encoding.md R76. -/
inductive Instr where
  /-- CLS, 43_display.md R140. -/
  | cls
  /-- RET, 40_control_flow.md R100. -/
  | ret
  /-- JP nnn, 40_control_flow.md R101. -/
  | jp (nnn : Addr12)
  /-- CALL nnn, 40_control_flow.md R102. -/
  | call (nnn : Addr12)
  /-- SE Vx,kk, 40_control_flow.md R103. -/
  | seImm (x : Reg) (kk : Byte)
  /-- SNE Vx,kk, 40_control_flow.md R104. -/
  | sneImm (x : Reg) (kk : Byte)
  /-- SE Vx,Vy, 40_control_flow.md R105. -/
  | seReg (x y : Reg)
  /-- LD Vx,kk, 41_immediate.md R110. -/
  | ldImm (x : Reg) (kk : Byte)
  /-- ADD Vx,kk, 41_immediate.md R111. -/
  | addImm (x : Reg) (kk : Byte)
  /-- LD Vx,Vy, 42_alu.md R121. -/
  | ldReg (x y : Reg)
  /-- OR Vx,Vy, 42_alu.md R122. -/
  | orReg (x y : Reg)
  /-- AND Vx,Vy, 42_alu.md R123. -/
  | andReg (x y : Reg)
  /-- XOR Vx,Vy, 42_alu.md R124. -/
  | xorReg (x y : Reg)
  /-- ADD Vx,Vy, 42_alu.md R125. -/
  | addReg (x y : Reg)
  /-- SUB Vx,Vy, 42_alu.md R126. -/
  | subReg (x y : Reg)
  /-- SHR Vx, 42_alu.md R127. -/
  | shr (x : Reg)
  /-- SUBN Vx,Vy, 42_alu.md R128. -/
  | subnReg (x y : Reg)
  /-- SHL Vx, 42_alu.md R129. -/
  | shl (x : Reg)
  /-- SNE Vx,Vy, 40_control_flow.md R106. -/
  | sneReg (x y : Reg)
  /-- LD I,nnn, 41_immediate.md R112. -/
  | ldI (nnn : Addr12)
  /-- RND Vx,kk, 41_immediate.md R113. -/
  | rnd (x : Reg) (kk : Byte)
  /-- DRW Vx,Vy,n, 43_display.md R142. -/
  | drw (x y : Reg) (n : Height)
  /-- ADD I,Vx, 44_memory_ops.md R150. -/
  | addI (x : Reg)
  /-- LD B,Vx, 44_memory_ops.md R151. -/
  | ldB (x : Reg)
  /-- LD [I],Vx, 44_memory_ops.md R153; `x` is the last register stored. -/
  | storeRegs (x : Reg)
  /-- LD Vx,[I], 44_memory_ops.md R154; `x` is the last register loaded. -/
  | loadRegs (x : Reg)
deriving DecidableEq, Repr

end Sys2Proof
end

