-- ==== Sys2Proof/WellFormed.lean ====
section
/-! DEFINITION. Well-formedness of instructions. The types of `Instr` leave no operand out of range, so the one
check left is the spec's own convention on "well-formed programs" (10_state.md R26, 90_conflicts.md C4): a jump or
call target is even and lies in `[0x200, 0xFFE]`. The hardware does not check it (92_eei_decisions.md D8) and no
meaning of the machine looks at it; statements use it as a premise on programs. -/

namespace Sys2Proof

/-- The target `nnn` is even and at or above the entry point (R26, R195). -/
def targetWf (nnn : Addr12) : Bool :=
  nnn.toNat % 2 == 0 && decide (0x200 ≤ nnn.toNat)

/-- The instruction keeps the convention of 10_state.md R26: "only jumping to even addresses at or above `0x200`". -/
def Instr.wf : Instr → Bool
  | .jp nnn => targetWf nnn
  | .call nnn => targetWf nnn
  | .cls => true
  | .ret => true
  | .seImm _ _ => true
  | .sneImm _ _ => true
  | .seReg _ _ => true
  | .ldImm _ _ => true
  | .addImm _ _ => true
  | .ldReg _ _ => true
  | .orReg _ _ => true
  | .andReg _ _ => true
  | .xorReg _ _ => true
  | .addReg _ _ => true
  | .subReg _ _ => true
  | .shr _ => true
  | .subnReg _ _ => true
  | .shl _ => true
  | .sneReg _ _ => true
  | .ldI _ => true
  | .rnd _ _ => true
  | .drw _ _ _ => true
  | .addI _ => true
  | .ldB _ => true
  | .storeRegs _ => true
  | .loadRegs _ => true

end Sys2Proof
end

