-- ==== Sys2Proof/Decode.lean ====
section
/-! DEFINITION. From words to instructions and back (30_encoding.md). The decoder follows the algorithm of R77, the
encoder the layouts of R73 with every ignored bit 0 (R75, R86), and `opcodeTable` is the map of R76 as data. -/

namespace Sys2Proof

/-! ## Fields of the instruction word (R72) -/

/-- Class nibble `c = w[15:12]` (R72). -/
def fieldC (w : Word) : BitVec 4 := w.extractLsb' 12 4

/-- Register operand `x = w[11:8]` (R72). -/
def fieldX (w : Word) : Reg := (w.extractLsb' 8 4).toFin

/-- Register operand `y = w[7:4]` (R72). -/
def fieldY (w : Word) : Reg := (w.extractLsb' 4 4).toFin

/-- Low nibble `n = w[3:0]` (R72). -/
def fieldN (w : Word) : Height := (w.extractLsb' 0 4).toFin

/-- Immediate byte `kk = w[7:0]` (R72). -/
def fieldKK (w : Word) : Byte := w.extractLsb' 0 8

/-- Address `nnn = w[11:0]` (R72). -/
def fieldNNN (w : Word) : Addr12 := w.extractLsb' 0 12

/-! ## Byte order (R55) -/

/-- The word of two consecutive bytes, the high byte first (R55). -/
def wordOfBytes (hi lo : Byte) : Word := hi ++ lo

/-- The byte of `w` at the lower address (R55). -/
def highByte (w : Word) : Byte := w.extractLsb' 8 8

/-- The byte of `w` at the higher address (R55). -/
def lowByte (w : Word) : Byte := w.extractLsb' 0 8

/-- A word as memory holds it, the lower address first (R55). -/
def bytesOfWord (w : Word) : List Byte := [highByte w, lowByte w]

/-! ## The decoder -/

/-- Why bytes are no instruction. -/
inductive DecodeReject where
  /-- The word matches no row of R76 (R80); `step` reports it as `UnimplementedInstruction`. Safe. -/
  | illegalWord (w : Word)
  /-- Fewer than two bytes were given: no word. It cannot arise in `step`, which fetches two bytes (R70). Safe. -/
  | tooShort
deriving DecidableEq, Repr

/-- Class 0, the system class, selected by the low byte (R74, R77). -/
def decodeSystem (w : Word) : Except DecodeReject Instr :=
  match (fieldKK w).toNat with
  | 0xE0 => .ok .cls
  | 0xEE => .ok .ret
  | _ => .error (.illegalWord w)

/-- Class 8, the arithmetic class, selected by the low nibble (R74, R77). -/
def decodeArithmetic (w : Word) : Except DecodeReject Instr :=
  match (fieldN w).val with
  | 0x0 => .ok (.ldReg (fieldX w) (fieldY w))
  | 0x1 => .ok (.orReg (fieldX w) (fieldY w))
  | 0x2 => .ok (.andReg (fieldX w) (fieldY w))
  | 0x3 => .ok (.xorReg (fieldX w) (fieldY w))
  | 0x4 => .ok (.addReg (fieldX w) (fieldY w))
  | 0x5 => .ok (.subReg (fieldX w) (fieldY w))
  | 0x6 => .ok (.shr (fieldX w))
  | 0x7 => .ok (.subnReg (fieldX w) (fieldY w))
  | 0xE => .ok (.shl (fieldX w))
  | _ => .error (.illegalWord w)

/-- Class F, the timer/memory class, selected by the low byte (R74, R77). -/
def decodeMemory (w : Word) : Except DecodeReject Instr :=
  match (fieldKK w).toNat with
  | 0x1E => .ok (.addI (fieldX w))
  | 0x33 => .ok (.ldB (fieldX w))
  | 0x55 => .ok (.storeRegs (fieldX w))
  | 0x65 => .ok (.loadRegs (fieldX w))
  | _ => .error (.illegalWord w)

/-- The decoder of R77: total, every word selects one row of R76 or is rejected by name. -/
def decode (w : Word) : Except DecodeReject Instr :=
  match (fieldC w).toNat with
  | 0x0 => decodeSystem w
  | 0x1 => .ok (.jp (fieldNNN w))
  | 0x2 => .ok (.call (fieldNNN w))
  | 0x3 => .ok (.seImm (fieldX w) (fieldKK w))
  | 0x4 => .ok (.sneImm (fieldX w) (fieldKK w))
  | 0x5 => .ok (.seReg (fieldX w) (fieldY w))
  | 0x6 => .ok (.ldImm (fieldX w) (fieldKK w))
  | 0x7 => .ok (.addImm (fieldX w) (fieldKK w))
  | 0x8 => decodeArithmetic w
  | 0x9 => .ok (.sneReg (fieldX w) (fieldY w))
  | 0xA => .ok (.ldI (fieldNNN w))
  | 0xC => .ok (.rnd (fieldX w) (fieldKK w))
  | 0xD => .ok (.drw (fieldX w) (fieldY w) (fieldN w))
  | 0xF => decodeMemory w
  | _ => .error (.illegalWord w)

/-- The decoder on bytes as memory holds them: the instruction and the bytes after it (R55, R71). -/
def decodeBytes : List Byte → Except DecodeReject (Instr × List Byte)
  | hi :: lo :: rest =>
    match decode (wordOfBytes hi lo) with
    | .ok i => .ok (i, rest)
    | .error e => .error e
  | _ => .error .tooShort

/-! ## The encoder -/

/-- A register number as a 4-bit field (R72). -/
def nibble (r : Fin 16) : BitVec 4 := BitVec.ofFin r

/-- Format `SYS`, ignored bits 0 (R73, R86). -/
def encSYS (kk : Byte) : Word := 0x0#4 ++ 0x0#4 ++ kk

/-- Format `ADDR` (R73). -/
def encADDR (c : BitVec 4) (nnn : Addr12) : Word := c ++ nnn

/-- Format `XKK` (R73). -/
def encXKK (c : BitVec 4) (x : Reg) (kk : Byte) : Word := c ++ nibble x ++ kk

/-- Format `XY` with the low nibble `s` (R73). -/
def encXY (c : BitVec 4) (x y : Reg) (s : BitVec 4) : Word := c ++ nibble x ++ nibble y ++ s

/-- Format `XYN` (R73). -/
def encXYN (x y : Reg) (n : Height) : Word := 0xD#4 ++ nibble x ++ nibble y ++ nibble n

/-- Format `XF` (R73). -/
def encXF (x : Reg) (kk : Byte) : Word := 0xF#4 ++ nibble x ++ kk

/-- The canonical word of an instruction: the layouts of R73, the numbers of R76, every ignored bit 0 (R86). -/
def encode : Instr → Word
  | .cls => encSYS 0xE0
  | .ret => encSYS 0xEE
  | .jp nnn => encADDR 0x1 nnn
  | .call nnn => encADDR 0x2 nnn
  | .seImm x kk => encXKK 0x3 x kk
  | .sneImm x kk => encXKK 0x4 x kk
  | .seReg x y => encXY 0x5 x y 0x0
  | .ldImm x kk => encXKK 0x6 x kk
  | .addImm x kk => encXKK 0x7 x kk
  | .ldReg x y => encXY 0x8 x y 0x0
  | .orReg x y => encXY 0x8 x y 0x1
  | .andReg x y => encXY 0x8 x y 0x2
  | .xorReg x y => encXY 0x8 x y 0x3
  | .addReg x y => encXY 0x8 x y 0x4
  | .subReg x y => encXY 0x8 x y 0x5
  | .shr x => encXY 0x8 x 0 0x6
  | .subnReg x y => encXY 0x8 x y 0x7
  | .shl x => encXY 0x8 x 0 0xE
  | .sneReg x y => encXY 0x9 x y 0x0
  | .ldI nnn => encADDR 0xA nnn
  | .rnd x kk => encXKK 0xC x kk
  | .drw x y n => encXYN x y n
  | .addI x => encXF x 0x1E
  | .ldB x => encXF x 0x33
  | .storeRegs x => encXF x 0x55
  | .loadRegs x => encXF x 0x65

/-! ## The opcode map as data (R76) -/

/-- One row of R76: a word `w` selects it exactly when `w &&& mask = pat`. -/
structure OpRow where
  mnemonic : String
  pat : Word
  mask : Word
deriving DecidableEq, Repr

/-- A word selects a row (R76). -/
def OpRow.selects (r : OpRow) (w : Word) : Bool := w &&& r.mask == r.pat

/-- The row of R76 that an instruction stands in. -/
def Instr.row : Instr → OpRow
  | .cls => ⟨"CLS", 0x00E0, 0xF0FF⟩
  | .ret => ⟨"RET", 0x00EE, 0xF0FF⟩
  | .jp _ => ⟨"JP nnn", 0x1000, 0xF000⟩
  | .call _ => ⟨"CALL nnn", 0x2000, 0xF000⟩
  | .seImm _ _ => ⟨"SE Vx,kk", 0x3000, 0xF000⟩
  | .sneImm _ _ => ⟨"SNE Vx,kk", 0x4000, 0xF000⟩
  | .seReg _ _ => ⟨"SE Vx,Vy", 0x5000, 0xF000⟩
  | .ldImm _ _ => ⟨"LD Vx,kk", 0x6000, 0xF000⟩
  | .addImm _ _ => ⟨"ADD Vx,kk", 0x7000, 0xF000⟩
  | .ldReg _ _ => ⟨"LD Vx,Vy", 0x8000, 0xF00F⟩
  | .orReg _ _ => ⟨"OR Vx,Vy", 0x8001, 0xF00F⟩
  | .andReg _ _ => ⟨"AND Vx,Vy", 0x8002, 0xF00F⟩
  | .xorReg _ _ => ⟨"XOR Vx,Vy", 0x8003, 0xF00F⟩
  | .addReg _ _ => ⟨"ADD Vx,Vy", 0x8004, 0xF00F⟩
  | .subReg _ _ => ⟨"SUB Vx,Vy", 0x8005, 0xF00F⟩
  | .shr _ => ⟨"SHR Vx", 0x8006, 0xF00F⟩
  | .subnReg _ _ => ⟨"SUBN Vx,Vy", 0x8007, 0xF00F⟩
  | .shl _ => ⟨"SHL Vx", 0x800E, 0xF00F⟩
  | .sneReg _ _ => ⟨"SNE Vx,Vy", 0x9000, 0xF000⟩
  | .ldI _ => ⟨"LD I,nnn", 0xA000, 0xF000⟩
  | .rnd _ _ => ⟨"RND Vx,kk", 0xC000, 0xF000⟩
  | .drw _ _ _ => ⟨"DRW Vx,Vy,n", 0xD000, 0xF000⟩
  | .addI _ => ⟨"ADD I,Vx", 0xF01E, 0xF0FF⟩
  | .ldB _ => ⟨"LD B,Vx", 0xF033, 0xF0FF⟩
  | .storeRegs _ => ⟨"LD [I],Vx", 0xF055, 0xF0FF⟩
  | .loadRegs _ => ⟨"LD Vx,[I]", 0xF065, 0xF0FF⟩

/-- The bits of an instruction's words that neither the dispatch nor an operand uses (R75). -/
def Instr.ignoredBits : Instr → Word
  | .cls => 0x0F00
  | .ret => 0x0F00
  | .seReg _ _ => 0x000F
  | .sneReg _ _ => 0x000F
  | .shr _ => 0x00F0
  | .shl _ => 0x00F0
  | .jp _ => 0
  | .call _ => 0
  | .seImm _ _ => 0
  | .sneImm _ _ => 0
  | .ldImm _ _ => 0
  | .addImm _ _ => 0
  | .ldReg _ _ => 0
  | .orReg _ _ => 0
  | .andReg _ _ => 0
  | .xorReg _ _ => 0
  | .addReg _ _ => 0
  | .subReg _ _ => 0
  | .subnReg _ _ => 0
  | .ldI _ => 0
  | .rnd _ _ => 0
  | .drw _ _ _ => 0
  | .addI _ => 0
  | .ldB _ => 0
  | .storeRegs _ => 0
  | .loadRegs _ => 0

/-- The 26 rows of R76, in its order. -/
def opcodeTable : List OpRow :=
  [Instr.cls.row, Instr.ret.row, (Instr.jp 0).row, (Instr.call 0).row, (Instr.seImm 0 0).row, (Instr.sneImm 0 0).row,
   (Instr.seReg 0 0).row, (Instr.ldImm 0 0).row, (Instr.addImm 0 0).row] ++
  [(Instr.ldReg 0 0).row, (Instr.orReg 0 0).row, (Instr.andReg 0 0).row, (Instr.xorReg 0 0).row,
   (Instr.addReg 0 0).row, (Instr.subReg 0 0).row, (Instr.shr 0).row, (Instr.subnReg 0 0).row, (Instr.shl 0).row] ++
  [(Instr.sneReg 0 0).row, (Instr.ldI 0).row, (Instr.rnd 0 0).row, (Instr.drw 0 0 0).row, (Instr.addI 0).row,
   (Instr.ldB 0).row, (Instr.storeRegs 0).row, (Instr.loadRegs 0).row]

/-! ## Assembler syntax (R85, R86) -/

/-- A number in hexadecimal with the prefix `0x` (R85). -/
def asmHex (n : Nat) : String := "0x" ++ String.ofList ((Nat.toDigits 16 n).map Char.toUpper)

/-- A register as `V0` to `VF` (R85). -/
def asmReg (r : Reg) : String := "V" ++ String.ofList ((Nat.toDigits 16 r.val).map Char.toUpper)

/-- An instruction in the operand syntax of R85, the destination first. -/
def Instr.asm : Instr → String
  | .cls => "CLS"
  | .ret => "RET"
  | .jp nnn => "JP " ++ asmHex nnn.toNat
  | .call nnn => "CALL " ++ asmHex nnn.toNat
  | .seImm x kk => "SE " ++ asmReg x ++ "," ++ asmHex kk.toNat
  | .sneImm x kk => "SNE " ++ asmReg x ++ "," ++ asmHex kk.toNat
  | .seReg x y => "SE " ++ asmReg x ++ "," ++ asmReg y
  | .ldImm x kk => "LD " ++ asmReg x ++ "," ++ asmHex kk.toNat
  | .addImm x kk => "ADD " ++ asmReg x ++ "," ++ asmHex kk.toNat
  | .ldReg x y => "LD " ++ asmReg x ++ "," ++ asmReg y
  | .orReg x y => "OR " ++ asmReg x ++ "," ++ asmReg y
  | .andReg x y => "AND " ++ asmReg x ++ "," ++ asmReg y
  | .xorReg x y => "XOR " ++ asmReg x ++ "," ++ asmReg y
  | .addReg x y => "ADD " ++ asmReg x ++ "," ++ asmReg y
  | .subReg x y => "SUB " ++ asmReg x ++ "," ++ asmReg y
  | .shr x => "SHR " ++ asmReg x
  | .subnReg x y => "SUBN " ++ asmReg x ++ "," ++ asmReg y
  | .shl x => "SHL " ++ asmReg x
  | .sneReg x y => "SNE " ++ asmReg x ++ "," ++ asmReg y
  | .ldI nnn => "LD I," ++ asmHex nnn.toNat
  | .rnd x kk => "RND " ++ asmReg x ++ "," ++ asmHex kk.toNat
  | .drw x y n => "DRW " ++ asmReg x ++ "," ++ asmReg y ++ "," ++ asmHex n.val
  | .addI x => "ADD I," ++ asmReg x
  | .ldB x => "LD B," ++ asmReg x
  | .storeRegs x => "LD [I]," ++ asmReg x
  | .loadRegs x => "LD " ++ asmReg x ++ ",[I]"

/-- The disassembler of R86: any word matched by a row of R76 prints as that row's instruction. -/
def disassemble (w : Word) : Option String :=
  match decode w with
  | .ok i => some i.asm
  | .error _ => none

/-! ## The host's reading of the opcode table -/

/-- The first word of an instruction whose bits are `w`, `nbits` of them given and every other bit 0. -/
def tableWord (nbits w : Nat) : Word := BitVec.ofNat 16 (w % 2 ^ nbits)

/-- The instruction the decoder reads from the bytes of that word as memory holds them. -/
def decodeTableWord (nbits w : Nat) : Option Instr :=
  match decodeBytes (bytesOfWord (tableWord nbits w)) with
  | .ok (i, _) => some i
  | .error _ => none

end Sys2Proof
end

