-- ==== Sys2Proof/Config.lean ====
section
/-! DEFINITION. What is fixed for the machine: the sizes of 00_scope.md R6, and the one free value of the spec,
the random byte (92_eei_decisions.md D15). -/

namespace Sys2Proof

/-- `MEM_SIZE`, bytes of memory (R6). -/
abbrev Config.memSize : Nat := 4096

/-- `PROG_BASE`, the load address and entry point (R6). -/
abbrev Config.progBase : Nat := 0x200

/-- `PROG_MAX`, the largest program image in bytes (R6). -/
abbrev Config.progMax : Nat := 3584

/-- `STACK_DEPTH`, entries of the call stack (R6). -/
abbrev Config.stackDepth : Nat := 16

/-- `DISP_W`, display columns (R6). -/
abbrev Config.dispW : Nat := 64

/-- `DISP_H`, display rows (R6). -/
abbrev Config.dispH : Nat := 32

/-- `INSN_LEN`, bytes of an instruction (R6). -/
abbrev Config.insnLen : Nat := 2

/-- `SPRITE_W`, pixels of a sprite row (R6). -/
abbrev Config.spriteW : Nat := 8

/-- `TICK_RATE`, the nominal rate of the host's timer tick in Hz; no rule depends on it (R6, R172). -/
abbrev Config.tickRate : Nat := 60

/-- FREE VALUE. `draw_byte()` of 00_scope.md R10 and 41_immediate.md R113: the random byte of the k-th RND executed.
It has no body, so nothing can be proved about it and a claim holds for every byte (92_eei_decisions.md D15,
93_implementation_defined.md U3; log entry 11). -/
opaque Config.drawByte : Nat → Byte

end Sys2Proof
end

