-- ==== Sys2Proof/Machine/State.lean ====
section
/-! DEFINITION. The machine instance (10_state.md R20): its whole state as plain data, the reasons a step can stop,
the state after power-on and the state after reset. -/

namespace Sys2Proof.Machine

/-- Memory as (address, byte) pairs in one canonical form (`Memory.wf` in Ops.lean): addresses strictly rising, all
below 4096, and no entry equal to 0, which is what an unlisted address reads as (10_state.md R36; log entry 15). -/
abbrev Memory := List Host.Cell

/-- The display surface (10_state.md R30): 32 rows of 64 cells; `true` is a cell that holds 1. -/
abbrev Surface := Vector (Vector Bool 64) 32

/-- The complete state of one machine instance (10_state.md R20), and the model's own counter `draws`. -/
structure State where
  /-- `V[0..15]`, general registers V0 to VF (R21). -/
  v : Vector Byte 16
  /-- `I`, the address register (R24). -/
  i : Word
  /-- `PC`, the address of the next instruction to fetch (R25). -/
  pc : Word
  /-- `SP`, the number of return addresses on the call stack (R27). -/
  sp : Byte
  /-- `STK[0..15]`, the call stack (R28). -/
  stk : Vector Word 16
  /-- `DT`, the delay timer (R29). -/
  dt : Byte
  /-- `ST`, the sound timer (R29). -/
  st : Byte
  /-- `MEM[0..4095]` (R32). -/
  mem : Memory
  /-- `FB`, the display surface (R30). -/
  fb : Surface
  /-- `DP`, the draw-pending flag (R31). -/
  dp : Bool
  /-- The model's own: how many random bytes RND has drawn, the argument of `Config.drawByte` (log entries 11, 12). -/
  draws : Nat
deriving DecidableEq, Repr

/-- The five faults, "the complete list" of 60_exceptions.md R160. All are fatal and precise: the state is as it was
before the step (R166). Every one is the spec's own, so each is exact (safe). -/
inductive Fault where
  /-- Raised by `step` after a fetch whose word matches no row of 30_encoding.md R76; it carries the raw word and the
  program counter (R161). Safe. -/
  | unimplementedInstruction (w pc : Word)
  /-- Raised by RET when `SP = 0` (R162). Safe. -/
  | stackUnderflow
  /-- Raised by CALL when the stack holds 16 entries, and by RET when `SP > 16` (R163). Safe. -/
  | stackOverflow
  /-- Raised by the fetch, DRW, LD B,Vx, LD [I],Vx and LD Vx,[I] when an address above 0xFFF would be accessed
  (R164). Safe. -/
  | outOfBoundsAccess
  /-- Raised by the load operation only, for an image longer than 3584 bytes (R165). Safe. -/
  | programTooLarge
deriving DecidableEq, Repr

/-- What the model does not answer. No meaning of an instruction refuses. -/
inductive Refusal where
  /-- For an instruction that has no meaning yet; no arm of `exec` uses it. Safe. -/
  | notModelled (mnemonic : String)
  /-- The host's `read_pixel` with coordinates off the surface: a precondition of the host (60_exceptions.md R179,
  92_eei_decisions.md D19). Safe. -/
  | pixelOffSurface
  /-- The host's decoded-next-instruction accessor where the fetch would fault or the word is illegal: the source
  does not say what it returns (91_not_in_source.md N28, 93_implementation_defined.md U14). Safe. -/
  | nextInstructionUnstated
deriving DecidableEq, Repr

/-- An all-dark surface. -/
def Surface.clear : Surface := Vector.replicate 32 (Vector.replicate 64 false)

/-- The state after construction and before any load: every cell 0 (70_reset_and_hazards.md R190). The reset value of
`draws` is the model's (log entry 12). -/
def State.powerOn : State where
  v := Vector.replicate 16 0
  i := 0
  pc := 0
  sp := 0
  stk := Vector.replicate 16 0
  dt := 0
  st := 0
  mem := []
  fb := Surface.clear
  dp := false
  draws := 0

/-- The machine right after reset. "Load is the machine's reset" (R191): the state after a load of an empty image,
everything 0 and `PC` at the fixed entry point 0x200 (10_state.md R36; log entry 13). -/
def State.reset : State := { State.powerOn with pc := 0x200 }

end Sys2Proof.Machine
end

