-- ==== Sys2Proof/Machine/Ops.lean ====
section
/-! DEFINITION. The named operations every meaning is written with: registers, memory, the program counter, the call
stack, raising a fault, and fetching an instruction (the primitives of 00_scope.md R10). -/

namespace Sys2Proof.Machine

/-! ## Taking a fault (60_exceptions.md R166, R168) -/

/-- `raise <Fault>(info)` of R10, the one way this machine takes an exception: the step ends with the named fault.
Nothing is saved, no vector is taken and no state changes (R166, R168), so no state goes with it; the host keeps the
state it had (`deliver` in HostOps.lean). There is no return from a fault (R169). -/
def raise (f : Fault) : Host.Outcome State Fault Refusal := .fault f

/-! ## Registers -/

/-- `V[x]` (R10). -/
def State.readV (s : State) (x : Reg) : Byte := s.v[x.val]

/-- `V[x] <- b` (R10). -/
def State.setV (s : State) (x : Reg) (b : Byte) : State := { s with v := s.v.set x.val b }

/-- `I <- w` (R10). -/
def State.setI (s : State) (w : Word) : State := { s with i := w }

/-- `PC <- w`, the only form of control transfer (R10). -/
def State.setPc (s : State) (w : Word) : State := { s with pc := w }

/-- `SP <- b` (R10). -/
def State.setSp (s : State) (b : Byte) : State := { s with sp := b }

/-- `STK[k]` (R10). -/
def State.readStk (s : State) (k : Fin 16) : Word := s.stk[k.val]

/-- `STK[k] <- w` (R10). -/
def State.setStk (s : State) (k : Fin 16) (w : Word) : State := { s with stk := s.stk.set k.val w }

/-- `DT <- d` and `ST <- t` (R10). -/
def State.setTimers (s : State) (d t : Byte) : State := { s with dt := d, st := t }

/-- The whole of `MEM`. -/
def State.setMem (s : State) (m : Memory) : State := { s with mem := m }

/-- The whole of `FB`. -/
def State.setFb (s : State) (fb : Surface) : State := { s with fb := fb }

/-- `DP <- b` (R10). -/
def State.setDp (s : State) (b : Bool) : State := { s with dp := b }

/-- One more random byte has been drawn (log entry 11). -/
def State.countDraw (s : State) : State := { s with draws := s.draws + 1 }

/-! ## The program counter (10_state.md R25) -/

/-- The sequential successor: `PC <- PC + 2`. -/
def State.advance (s : State) : State := s.setPc (s.pc + 2)

/-- A skip: `PC <- PC + 4` if the condition holds, else `PC <- PC + 2` (40_control_flow.md R103). -/
def State.skipIf (s : State) (c : Bool) : State := s.setPc (if c then s.pc + 4 else s.pc + 2)

/-! ## Memory (20_memory.md) -/

/-- What an address that memory does not list reads as: 0, the reset content (10_state.md R36). -/
def unlistedByte : Byte := 0

/-- The byte at address `a`. -/
def Memory.read : Memory → Nat → Byte
  | [], _ => unlistedByte
  | (k, b) :: rest, a => if k = a then b else Memory.read rest a

/-- Memory without an entry at `a`. -/
def Memory.erase (m : Memory) (a : Nat) : Memory := m.filter fun c => c.1 != a

/-- Memory with an entry put in its place by address. -/
def Memory.insert : Memory → Nat → Byte → Memory
  | [], a, b => [(a, b)]
  | (k, c) :: rest, a, b => if a < k then (a, b) :: (k, c) :: rest else (k, c) :: Memory.insert rest a b

/-- Store one byte: it changes exactly the addressed byte (R54) and keeps the canonical form. -/
def Memory.write (m : Memory) (a : Nat) (b : Byte) : Memory :=
  if b = unlistedByte then m.erase a else (m.erase a).insert a b

/-- Store consecutive bytes from `a` up. -/
def Memory.storeBytes : Memory → Nat → List Byte → Memory
  | m, _, [] => m
  | m, a, b :: bs => Memory.storeBytes (m.write a b) (a + 1) bs

/-- Memory that is zero but for the bytes of `img` from `a` up (70_reset_and_hazards.md R191). -/
def Memory.ofImage : Nat → List Byte → Memory
  | _, [] => []
  | a, b :: bs => if b = unlistedByte then Memory.ofImage (a + 1) bs else (a, b) :: Memory.ofImage (a + 1) bs

/-- The canonical form from address `lo` up: addresses strictly rising and below 4096, no entry reads as an unlisted
address does. -/
def Memory.wfFrom : Nat → Memory → Bool
  | _, [] => true
  | lo, (k, b) :: rest =>
    decide (lo ≤ k) && decide (k < Config.memSize) && (b != unlistedByte) && Memory.wfFrom (k + 1) rest

/-- The canonical form of memory. -/
def Memory.wf (m : Memory) : Bool := Memory.wfFrom 0 m

/-- The bounds test of 20_memory.md R53 for the `c` bytes `a .. a+c-1`: the sum is a natural number, never reduced,
and with `c = 0` no byte is accessed and nothing can be out of range. -/
def rangeInMemory (a c : Nat) : Bool := c == 0 || decide (a + c - 1 < Config.memSize)

/-- `MemRead(a, 1)` (R10). -/
def State.readByte (s : State) (a : Nat) : Byte := s.mem.read a

/-- Store consecutive bytes from `a` up, `MemWrite(a + k, 1, ·)` in rising order (R10). -/
def State.writeBytes (s : State) (a : Nat) (bs : List Byte) : State := s.setMem (s.mem.storeBytes a bs)

/-- Run `k` where the `c` bytes from `a` lie in memory, and raise `OutOfBoundsAccess` before anything is written where
they do not (R53). -/
def withRange (a c : Nat) (k : Host.Outcome State Fault Refusal) : Host.Outcome State Fault Refusal :=
  if rangeInMemory a c then k else raise .outOfBoundsAccess

/-! ## The call stack (10_state.md R28) -/

/-- Push the address of the executing instruction: `STK[SP] <- PC; SP <- SP + 1`. -/
def State.pushPc (s : State) (h : s.sp.toNat < 16) : State := (s.setStk ⟨s.sp.toNat, h⟩ s.pc).setSp (s.sp + 1)

/-! ## Fetch (30_encoding.md R70, R77) -/

/-- The instruction word at `PC`, high byte first, or `OutOfBoundsAccess` if `PC` or `PC + 1` lies outside memory. -/
def fetchWord (s : State) : Except Fault Word :=
  if rangeInMemory s.pc.toNat Config.insnLen then
    .ok (wordOfBytes (s.readByte s.pc.toNat) (s.readByte (s.pc.toNat + 1)))
  else .error .outOfBoundsAccess

/-- Fetch, then decode; the bounds check comes first (60_exceptions.md R167, R177). -/
def fetchInstr (s : State) : Except Fault Instr :=
  match fetchWord s with
  | .error f => .error f
  | .ok w =>
    match decode w with
    | .ok i => .ok i
    | .error _ => .error (.unimplementedInstruction w s.pc)

/-- The state with `w` stored where the next fetch reads: at `PC`, or at the entry point with `PC` set there where
nothing can be fetched at `PC`. For `State.withFetchWord`. -/
def State.placeWord (s : State) (w : Word) : State :=
  let s' := if rangeInMemory s.pc.toNat Config.insnLen then s else s.setPc (BitVec.ofNat 16 Config.progBase)
  s'.writeBytes s'.pc.toNat (bytesOfWord w)

end Sys2Proof.Machine
end

