-- ==== Sys2Proof/Machine/Operands.lean ====
section
/-! DEFINITION. The operand forms: jump targets, the base address `I`, the register range V0..Vx, the sprite bytes
and the decimal digits (30_encoding.md R72, 20_memory.md R52). -/

namespace Sys2Proof.Machine

/-- `zext_16(nnn)`: a 12-bit absolute address as a 16-bit value (R72). -/
def zext16 (nnn : Addr12) : Word := nnn.setWidth 16

/-- The base address `I` as a natural number; sums over it are never reduced (R53). -/
def State.base (s : State) : Nat := s.i.toNat

/-- The sixteen registers in order. -/
def allRegs : List Reg := [0, 1, 2, 3, 4, 5, 6, 7, 8, 9, 10, 11, 12, 13, 14, 15]

/-- V0..Vx, `x` included: the `x + 1` registers of a range operation (44_memory_ops.md R153). -/
def regsUpTo (x : Reg) : List Reg := allRegs.filter fun k => decide (k ≤ x)

/-- The values of V0..Vx in order, the bytes LD [I],Vx stores (R153). -/
def State.rangeBytes (s : State) (x : Reg) : List Byte := (regsUpTo x).map s.readV

/-- Registers V0..Vx loaded from the bytes at `I`, register `k` from address `I + k` (R154). -/
def State.loadRange (s : State) (x : Reg) : State :=
  (regsUpTo x).foldl (fun t k => t.setV k (s.readByte (s.base + k.val))) s

/-- The `n` sprite bytes at `I .. I+n-1` (43_display.md R141). -/
def State.spriteBytes (s : State) (n : Height) : List Byte :=
  (List.range n.val).map fun row => s.readByte (s.base + row)

/-- The pixel of a sprite byte in column `col`, bit `7 - col`: the most significant bit is column 0 (R141). -/
def spriteBit (b : Byte) (col : Nat) : Bool := b.getLsbD (7 - col)

/-- The three decimal digits of a byte: hundreds, tens, ones (44_memory_ops.md R151). -/
def bcdDigits (b : Byte) : List Byte :=
  [BitVec.ofNat 8 (b.toNat / 100), BitVec.ofNat 8 (b.toNat / 10 % 10), BitVec.ofNat 8 (b.toNat % 10)]

end Sys2Proof.Machine
end

