-- ==== Sys2Proof/Machine/Flags.lean ====
section
/-! DEFINITION. Results and flags of the ALU, over the old operand values (42_alu.md R120, R130): each is computed
exactly on natural numbers and then narrowed. -/

namespace Sys2Proof.Machine

/-- A flag as VF holds it: 0 or 1, never any other value (10_state.md R22). -/
def flagByte (f : Bool) : Byte := if f then 1 else 0

/-- `(a + b) mod 256` (R125). -/
def addResult (a b : Byte) : Byte := BitVec.ofNat 8 (a.toNat + b.toNat)

/-- The carry: `a + b > 255` (R125). -/
def addFlag (a b : Byte) : Bool := decide (a.toNat + b.toNat > 255)

/-- `(a - b) mod 256`, which is `a - b + 256` when `a < b` (R126). -/
def subResult (a b : Byte) : Byte := BitVec.ofNat 8 (a.toNat + 256 - b.toNat)

/-- `a > b`, strictly: equal operands give 0 (R126). -/
def subFlag (a b : Byte) : Bool := decide (a.toNat > b.toNat)

/-- `a div 2` (R127). -/
def shrResult (a : Byte) : Byte := BitVec.ofNat 8 (a.toNat / 2)

/-- `a[0]`, the bit shifted out (R127). -/
def shrFlag (a : Byte) : Bool := a.getLsbD 0

/-- `(2 * a) mod 256` (R129). -/
def shlResult (a : Byte) : Byte := BitVec.ofNat 8 (2 * a.toNat)

/-- `a[7]`, the bit shifted out (R129). -/
def shlFlag (a : Byte) : Bool := a.getLsbD 7

/-- `V[15] <- f` (R120). -/
def State.setFlag (s : State) (f : Bool) : State := s.setV Reg.vf (flagByte f)

/-- The end of a flag-writing ALU instruction: `V[x] <- r`, then the flag as the last register write, then the pc
(R120; 90_conflicts.md C1). With `x = 15` the flag is what remains. -/
def State.writeResultFlag (s : State) (x : Reg) (r : Byte) (f : Bool) : State := ((s.setV x r).setFlag f).advance

end Sys2Proof.Machine
end

