-- ==== Sys2Proof/Machine/Alu.lean ====
section
/-! DEFINITION. Register-to-register ALU instructions, class 8 (42_alu.md). Operands are read from the state as the
step began; the flag is the last register write (R120). -/

namespace Sys2Proof.Machine

/-- LD Vx,Vy (R121). -/
def execLdReg (x y : Reg) (s : State) : Host.Outcome State Fault Refusal :=
  .next (s.setV x (s.readV y)).advance

/-- OR Vx,Vy (R122); VF is not written unless `x = 15`. -/
def execOrReg (x y : Reg) (s : State) : Host.Outcome State Fault Refusal :=
  .next (s.setV x (s.readV x ||| s.readV y)).advance

/-- AND Vx,Vy (R123); VF is not written unless `x = 15`. -/
def execAndReg (x y : Reg) (s : State) : Host.Outcome State Fault Refusal :=
  .next (s.setV x (s.readV x &&& s.readV y)).advance

/-- XOR Vx,Vy (R124); VF is not written unless `x = 15`. -/
def execXorReg (x y : Reg) (s : State) : Host.Outcome State Fault Refusal :=
  .next (s.setV x (s.readV x ^^^ s.readV y)).advance

/-- ADD Vx,Vy (R125). -/
def execAddReg (x y : Reg) (s : State) : Host.Outcome State Fault Refusal :=
  .next (s.writeResultFlag x (addResult (s.readV x) (s.readV y)) (addFlag (s.readV x) (s.readV y)))

/-- SUB Vx,Vy (R126). -/
def execSubReg (x y : Reg) (s : State) : Host.Outcome State Fault Refusal :=
  .next (s.writeResultFlag x (subResult (s.readV x) (s.readV y)) (subFlag (s.readV x) (s.readV y)))

/-- SHR Vx (R127); `V[y]` is neither read nor written. -/
def execShr (x : Reg) (s : State) : Host.Outcome State Fault Refusal :=
  .next (s.writeResultFlag x (shrResult (s.readV x)) (shrFlag (s.readV x)))

/-- SUBN Vx,Vy (R128): the operands of SUB the other way round, the result still to `V[x]`. -/
def execSubnReg (x y : Reg) (s : State) : Host.Outcome State Fault Refusal :=
  .next (s.writeResultFlag x (subResult (s.readV y) (s.readV x)) (subFlag (s.readV y) (s.readV x)))

/-- SHL Vx (R129); `V[y]` is neither read nor written. -/
def execShl (x : Reg) (s : State) : Host.Outcome State Fault Refusal :=
  .next (s.writeResultFlag x (shlResult (s.readV x)) (shlFlag (s.readV x)))

end Sys2Proof.Machine
end

