-- ==== Sys2Proof/Machine/Control.lean ====
section
/-! DEFINITION. Control transfer (40_control_flow.md): RET, JP, CALL and the four skips. -/

namespace Sys2Proof.Machine

/-- RET (R100): "pops the stack, sets pc = popped address + 2". -/
def execRet (s : State) : Host.Outcome State Fault Refusal :=
  if h0 : s.sp.toNat = 0 then raise .stackUnderflow
  else if h1 : s.sp.toNat > 16 then raise .stackOverflow
  else .next ((s.setSp (s.sp - 1)).setPc (s.readStk ⟨s.sp.toNat - 1, by omega⟩ + 2))

/-- JP nnn (R101): "pc := 12-bit address (absolute, no += 2)". -/
def execJp (nnn : Addr12) (s : State) : Host.Outcome State Fault Refusal :=
  .next (s.setPc (zext16 nnn))

/-- CALL nnn (R102): the address of the CALL itself is pushed; a full stack faults before anything is written. -/
def execCall (nnn : Addr12) (s : State) : Host.Outcome State Fault Refusal :=
  if h : s.sp.toNat < 16 then .next ((s.pushPc h).setPc (zext16 nnn))
  else raise .stackOverflow

/-- SE Vx,kk (R103). -/
def execSeImm (x : Reg) (kk : Byte) (s : State) : Host.Outcome State Fault Refusal :=
  .next (s.skipIf (s.readV x == kk))

/-- SNE Vx,kk (R104). -/
def execSneImm (x : Reg) (kk : Byte) (s : State) : Host.Outcome State Fault Refusal :=
  .next (s.skipIf (s.readV x != kk))

/-- SE Vx,Vy (R105). -/
def execSeReg (x y : Reg) (s : State) : Host.Outcome State Fault Refusal :=
  .next (s.skipIf (s.readV x == s.readV y))

/-- SNE Vx,Vy (R106). -/
def execSneReg (x y : Reg) (s : State) : Host.Outcome State Fault Refusal :=
  .next (s.skipIf (s.readV x != s.readV y))

end Sys2Proof.Machine
end

