-- ==== Sys2Proof/Machine/Surface.lean ====
section
/-! DEFINITION. The display surface and the sprite compositor (10_state.md R30, 43_display.md R141 to R147). -/

namespace Sys2Proof.Machine

/-- `FB[px, py]` (R10). -/
def Surface.cell (fb : Surface) (px : Fin 64) (py : Fin 32) : Bool := (fb[py.val])[px.val]

/-- `FB[px, py] <- FB[px, py] ^ 1`. -/
def Surface.flip (fb : Surface) (px : Fin 64) (py : Fin 32) : Surface :=
  fb.set py.val ((fb[py.val]).set px.val (!fb.cell px py))

/-- The surface flattened row-major, 2048 cells: the flat index of cell `(px, py)` is `py * 64 + px` (R30). -/
def Surface.flat (fb : Surface) : List Bool := (fb.toList.map Vector.toList).flatten

/-- The column of sprite column `col` at origin `ox`, wrapped per pixel: `(ox + col) mod 64` (R143). -/
def wrapX (ox : Byte) (col : Nat) : Fin 64 := ⟨(ox.toNat + col) % 64, Nat.mod_lt _ (by decide)⟩

/-- The row of sprite row `row` at origin `oy`, wrapped per pixel: `(oy + row) mod 32` (R143). -/
def wrapY (oy : Byte) (row : Nat) : Fin 32 := ⟨(oy.toNat + row) % 32, Nat.mod_lt _ (by decide)⟩

/-- One sprite pixel at cell `(px, py)`: a 1 bit is XORed onto the cell and records a collision if the cell was 1; a
0 bit leaves both alone (R141, R142). The pair is the surface and the collision so far. -/
def drawPixel (px : Fin 64) (py : Fin 32) (bit : Bool) (acc : Surface × Bool) : Surface × Bool :=
  if bit then (acc.1.flip px py, acc.2 || acc.1.cell px py) else acc

/-- One sprite row: its 8 columns from the most significant bit (R142). -/
def drawRow (ox : Byte) (py : Fin 32) (b : Byte) (acc : Surface × Bool) : Surface × Bool :=
  (List.range 8).foldl (fun acc col => drawPixel (wrapX ox col) py (spriteBit b col) acc) acc

/-- The sprite's rows from number `row` on (R142). -/
def drawRows (ox oy : Byte) : Nat → List Byte → Surface × Bool → Surface × Bool
  | _, [], acc => acc
  | row, b :: bs, acc => drawRows ox oy (row + 1) bs (drawRow ox (wrapY oy row) b acc)

/-- The sprite compositor: the new surface and the collision flag, which starts at 0 (R142). -/
def drawSprite (ox oy : Byte) (bytes : List Byte) (fb : Surface) : Surface × Bool :=
  drawRows ox oy 0 bytes (fb, false)

end Sys2Proof.Machine
end

