-- ==== Sys2Proof/Machine/Display.lean ====
section
/-! DEFINITION. Display instructions (43_display.md): CLS and DRW. -/

namespace Sys2Proof.Machine

/-- CLS (R140): every cell 0, `DP` set, VF untouched. -/
def execCls (s : State) : Host.Outcome State Fault Refusal :=
  .next ((s.setFb Surface.clear).setDp true).advance

/-- The writes of DRW once its sprite is known to lie in memory, in the order of R142: surface, VF, `DP`, `PC`. -/
def State.drawn (s : State) (x y : Reg) (n : Height) : State :=
  let d := drawSprite (s.readV x) (s.readV y) (s.spriteBytes n) s.fb
  (((s.setFb d.1).setFlag d.2).setDp true).advance

/-- DRW Vx,Vy,n (R142): origin and sprite bytes are read first (R144), then the bounds test, then every write. -/
def execDrw (x y : Reg) (n : Height) (s : State) : Host.Outcome State Fault Refusal :=
  withRange s.base n.val (.next (s.drawn x y n))

end Sys2Proof.Machine
end

