-- ==== Sys2Proof/Machine/Immediate.lean ====
section
/-! DEFINITION. Instructions with an immediate operand (41_immediate.md): LD Vx,kk, ADD Vx,kk, LD I,nnn, RND Vx,kk. -/

namespace Sys2Proof.Machine

/-- LD Vx,kk (R110). -/
def execLdImm (x : Reg) (kk : Byte) (s : State) : Host.Outcome State Fault Refusal :=
  .next (s.setV x kk).advance

/-- ADD Vx,kk (R111): wraps modulo 256, no flag. -/
def execAddImm (x : Reg) (kk : Byte) (s : State) : Host.Outcome State Fault Refusal :=
  .next (s.setV x (addResult (s.readV x) kk)).advance

/-- LD I,nnn (R112). -/
def execLdI (nnn : Addr12) (s : State) : Host.Outcome State Fault Refusal :=
  .next (s.setI (zext16 nnn)).advance

/-- RND Vx,kk (R113) with the random byte `r`: `V[x] <- r & kk`. -/
def rndWith (r : Byte) (x : Reg) (kk : Byte) (s : State) : State := (s.setV x (r &&& kk)).advance

/-- RND Vx,kk (R113): the byte is the free value of this draw (92_eei_decisions.md D15; log entry 11). -/
def execRnd (x : Reg) (kk : Byte) (s : State) : Host.Outcome State Fault Refusal :=
  .next (rndWith (Config.drawByte s.draws) x kk s).countDraw

end Sys2Proof.Machine
end

