-- ==== Sys2Proof/Machine/MemOps.lean ====
section
/-! DEFINITION. Class F (44_memory_ops.md): ADD I,Vx, LD B,Vx, LD [I],Vx, LD Vx,[I]. None changes VF as a flag, and only
ADD I,Vx changes `I`. -/

namespace Sys2Proof.Machine

/-- ADD I,Vx (R150): modulo 65536, no flag, no fault. -/
def execAddI (x : Reg) (s : State) : Host.Outcome State Fault Refusal :=
  .next (s.setI (BitVec.ofNat 16 (s.i.toNat + (s.readV x).toNat))).advance

/-- LD B,Vx (R151): three digits at `I .. I+2`. -/
def execLdB (x : Reg) (s : State) : Host.Outcome State Fault Refusal :=
  withRange s.base 3 (.next (s.writeBytes s.base (bcdDigits (s.readV x))).advance)

/-- LD [I],Vx (R153): V0..Vx to `I .. I+x`. -/
def execStoreRegs (x : Reg) (s : State) : Host.Outcome State Fault Refusal :=
  withRange s.base (x.val + 1) (.next (s.writeBytes s.base (s.rangeBytes x)).advance)

/-- LD Vx,[I] (R154): `I .. I+x` to V0..Vx. -/
def execLoadRegs (x : Reg) (s : State) : Host.Outcome State Fault Refusal :=
  withRange s.base (x.val + 1) (.next (s.loadRange x).advance)

end Sys2Proof.Machine
end

