-- ==== Sys2Proof/Machine/Step.lean ====
section
/-! DEFINITION. One step of the machine (60_exceptions.md R177): fetch, decode, execute. -/

namespace Sys2Proof.Machine

/-- `step()` of R177: the fetch bounds check, then the decoder, then the instruction's own rule (R167). -/
def step (s : State) : Host.Outcome State Fault Refusal :=
  match fetchInstr s with
  | .error f => raise f
  | .ok i => exec i s

/-- The state with an instruction placed where the next fetch reads it; it stands for the load of a program from
outside the machine (log entry 14). -/
def State.withFetchWord (s : State) (nbits w : Nat) : State := s.placeWord (tableWord nbits w)

end Sys2Proof.Machine
end

