-- ==== Sys2Proof/Machine/HostOps.lean ====
section
/-! DEFINITION. The host interface (60_exceptions.md R176): the six atomic operations, what each answers, and runs of
them. An operation falls between steps, never inside one (R176, 93_implementation_defined.md U11). -/

namespace Sys2Proof.Machine

/-- The four read-only accessors of introspection (R180). -/
inductive Accessor where
  | programCounter
  | stackPointer
  | stackContents
  | nextInstruction
deriving DecidableEq, Repr

/-- The host's operations (R176). -/
inductive HostOp where
  | load (img : List Byte)
  | step
  | tickTimers
  | isDirty
  | readPixel (x y : Nat)
  | inspect (what : Accessor)
deriving DecidableEq, Repr

/-- What an operation returns to the host. -/
inductive HostReply where
  /-- `Ok`, or the empty answer of the tick. -/
  | ok
  /-- The step or load faulted. -/
  | faulted (f : Fault)
  /-- The answer of `is_dirty`. -/
  | dirty (b : Bool)
  /-- The answer of `read_pixel`. -/
  | pixel (b : Bool)
  /-- The program counter. -/
  | programCounter (w : Word)
  /-- The stack pointer. -/
  | stackPointer (b : Byte)
  /-- The call stack. -/
  | stackContents (stk : Vector Word 16)
  /-- The decoded next instruction. -/
  | nextInstruction (i : Instr)
  /-- The model does not answer. -/
  | refused (r : Refusal)
deriving DecidableEq, Repr

/-- What the host holds after a step or load, and what it was told: a fault leaves the state as it was and nothing
latches it (R166, R168, R169; log entry 10). -/
def deliver (s : State) : Host.Outcome State Fault Refusal → State × HostReply
  | .next t => (t, .ok)
  | .fault f => (s, .faulted f)
  | .refused r => (s, .refused r)

/-- The state after a successful load (70_reset_and_hazards.md R191): everything 0, the image at 0x200, `PC` there.
The count of random draws goes on, so that a load does not repeat the random bytes (log entry 12). -/
def State.loaded (s : State) (img : List Byte) : State :=
  { State.reset with mem := Memory.ofImage Config.progBase img, draws := s.draws }

/-- load (R191): the size check comes before every write. -/
def load (img : List Byte) (s : State) : Host.Outcome State Fault Refusal :=
  if img.length ≤ Config.progMax then .next (s.loaded img) else raise .programTooLarge

/-- One timer lowered by one if it is above zero (R172). -/
def tickTimer (t : Byte) : Byte := if t.toNat > 0 then t - 1 else t

/-- tick_timers (R172): both timers in one operation. -/
def tickTimers (s : State) : State := s.setTimers (tickTimer s.dt) (tickTimer s.st)

/-- read_pixel (R179): the cell, for coordinates on the surface. -/
def readPixel (x y : Nat) (s : State) : HostReply :=
  if h : x < 64 ∧ y < 32 then .pixel (s.fb.cell ⟨x, h.1⟩ ⟨y, h.2⟩) else .refused .pixelOffSurface

/-- Introspection (R180): reads, and fetch and decode at `PC` without executing. -/
def inspect (what : Accessor) (s : State) : HostReply :=
  match what with
  | .programCounter => .programCounter s.pc
  | .stackPointer => .stackPointer s.sp
  | .stackContents => .stackContents s.stk
  | .nextInstruction =>
    match fetchInstr s with
    | .ok i => .nextInstruction i
    | .error _ => .refused .nextInstructionUnstated

/-- One host operation: the state after it and the answer (R176). -/
def hostOp (op : HostOp) (s : State) : State × HostReply :=
  match op with
  | .load img => deliver s (load img s)
  | .step => deliver s (step s)
  | .tickTimers => (tickTimers s, .ok)
  | .isDirty => (s.setDp false, .dirty s.dp)
  | .readPixel x y => (s, readPixel x y s)
  | .inspect what => (s, inspect what s)

/-- A run: host operations one after another, and the answers in order (10_state.md R35). -/
def runOps : List HostOp → State → State × List HostReply
  | [], s => (s, [])
  | op :: ops, s =>
    let r := hostOp op s
    let q := runOps ops r.1
    (q.1, r.2 :: q.2)

end Sys2Proof.Machine
end

