-- ==== Sys2Proof/Safety.lean ====
section
/-! DEFINITION. The terms statements are written in: what a change leaves alone, the invariant of the machine, the
reachable states, the program convention on the pc, and the end of a run. The machine uses none of them. -/

namespace Sys2Proof.Machine

/-! ## What a change leaves alone (92_eei_decisions.md D11) -/

/-- Every general register outside `rs` holds what it held. -/
def KeepsV (rs : List Reg) (s t : State) : Prop := ∀ r, r ∉ rs → t.readV r = s.readV r

/-- `I` holds what it held. -/
def KeepsI (s t : State) : Prop := t.i = s.i

/-- `SP` and every call-stack slot hold what they held. -/
def KeepsStack (s t : State) : Prop := t.sp = s.sp ∧ ∀ k, t.readStk k = s.readStk k

/-- Both timers hold what they held. -/
def KeepsTimers (s t : State) : Prop := t.dt = s.dt ∧ t.st = s.st

/-- Every byte of memory reads as before. -/
def KeepsMem (s t : State) : Prop := ∀ a, t.readByte a = s.readByte a

/-- Every byte of memory outside the `c` bytes from `a` reads as before. -/
def KeepsMemOutside (a c : Nat) (s t : State) : Prop :=
  ∀ k, ¬ (a ≤ k ∧ k < a + c) → t.readByte k = s.readByte k

/-- Every display cell and `DP` hold what they held. -/
def KeepsDisplay (s t : State) : Prop := (∀ px py, t.fb.cell px py = s.fb.cell px py) ∧ t.dp = s.dp

/-- No random byte was drawn. -/
def KeepsDraws (s t : State) : Prop := t.draws = s.draws

/-- The program counter is the sequential successor, `PC + 2` (10_state.md R25). -/
def Advances (s t : State) : Prop := t.pc.toNat = (s.pc.toNat + 2) % 65536

/-- Nothing but the program counter and the general registers `rs` changes. -/
def ChangesOnly (rs : List Reg) (s t : State) : Prop :=
  KeepsV rs s t ∧ KeepsI s t ∧ KeepsStack s t ∧ KeepsTimers s t ∧ KeepsMem s t ∧ KeepsDisplay s t ∧ KeepsDraws s t

/-- Cell `(px, py)` is covered by a 1 bit of the sprite of height `n` at `I` with its origin in registers `x`, `y`,
wrapped per pixel (43_display.md R141, R143). -/
def SpriteCovers (s : State) (x y : Reg) (n : Height) (px : Fin 64) (py : Fin 32) : Prop :=
  ∃ row < n.val, ∃ col < 8, (s.readByte (s.base + row)).getLsbD (7 - col) = true ∧
    ((s.readV x).toNat + col) % 64 = px.val ∧ ((s.readV y).toNat + row) % 32 = py.val

/-! ## What an instruction's encoding and registers are -/

/-- Every word with `w & mask == pat` decodes to the instruction `f` builds from its fields (30_encoding.md R76). -/
def DecodesAs (mask pat : Word) (f : Word → Instr) : Prop := ∀ w : Word, w &&& mask = pat → decode w = .ok (f w)

/-- The general registers an instruction reads: the `r` entries of the table of 10_state.md R23. -/
def readsV : Instr → List Reg
  | .cls => []
  | .ret => []
  | .jp _ => []
  | .call _ => []
  | .seImm x _ => [x]
  | .sneImm x _ => [x]
  | .seReg x y => [x, y]
  | .ldImm _ _ => []
  | .addImm x _ => [x]
  | .ldReg _ y => [y]
  | .orReg x y => [x, y]
  | .andReg x y => [x, y]
  | .xorReg x y => [x, y]
  | .addReg x y => [x, y]
  | .subReg x y => [x, y]
  | .shr x => [x]
  | .subnReg x y => [x, y]
  | .shl x => [x]
  | .sneReg x y => [x, y]
  | .ldI _ => []
  | .rnd _ _ => []
  | .drw x y _ => [x, y]
  | .addI x => [x]
  | .ldB x => [x]
  | .storeRegs x => regsUpTo x
  | .loadRegs _ => []

/-- The general registers an instruction writes: the `w` entries of the table of 10_state.md R23. -/
def writesV : Instr → List Reg
  | .cls => []
  | .ret => []
  | .jp _ => []
  | .call _ => []
  | .seImm _ _ => []
  | .sneImm _ _ => []
  | .seReg _ _ => []
  | .ldImm x _ => [x]
  | .addImm x _ => [x]
  | .ldReg x _ => [x]
  | .orReg x _ => [x]
  | .andReg x _ => [x]
  | .xorReg x _ => [x]
  | .addReg x _ => [x, Reg.vf]
  | .subReg x _ => [x, Reg.vf]
  | .shr x => [x, Reg.vf]
  | .subnReg x _ => [x, Reg.vf]
  | .shl x => [x, Reg.vf]
  | .sneReg _ _ => []
  | .ldI _ => []
  | .rnd x _ => [x]
  | .drw _ _ _ => [Reg.vf]
  | .addI _ => []
  | .ldB _ => []
  | .storeRegs _ => []
  | .loadRegs x => regsUpTo x

/-- The six instructions that write VF as a flag (10_state.md R22). -/
def writesFlag : Instr → Bool
  | .addReg _ _ => true
  | .subReg _ _ => true
  | .shr _ => true
  | .subnReg _ _ => true
  | .shl _ => true
  | .drw _ _ _ => true
  | .cls => false
  | .ret => false
  | .jp _ => false
  | .call _ => false
  | .seImm _ _ => false
  | .sneImm _ _ => false
  | .seReg _ _ => false
  | .ldImm _ _ => false
  | .addImm _ _ => false
  | .ldReg _ _ => false
  | .orReg _ _ => false
  | .andReg _ _ => false
  | .xorReg _ _ => false
  | .sneReg _ _ => false
  | .ldI _ => false
  | .rnd _ _ => false
  | .addI _ => false
  | .ldB _ => false
  | .storeRegs _ => false
  | .loadRegs _ => false

/-- How many words of class `c` the decoder rejects. -/
def illegalCount (c : Nat) : Nat :=
  ((List.range 64).map fun hi => (List.range 64).countP fun lo =>
    match decode (BitVec.ofNat 16 (c * 4096 + hi * 64 + lo)) with
    | .ok _ => false
    | .error _ => true).sum

/-! ## Invariant and reachable states -/

/-- What every run of the machine keeps: memory in canonical form, `0 <= SP <= 16` (10_state.md R37), the bound on the
pc and on the pushed addresses (R26, 40_control_flow.md R100), and both timers 0 (R38). -/
structure Inv (s : State) : Prop where
  mem : s.mem.wf = true
  sp : s.sp.toNat ≤ 16
  pc : s.pc.toNat ≤ 0x1002
  stk : ∀ k, (s.readStk k).toNat ≤ 0xFFE
  dt : s.dt = 0
  st : s.st = 0

/-- The states reached from power-on by host operations, loads of any image and steps among them. -/
inductive Reachable : State → Prop where
  | powerOn : Reachable State.powerOn
  | op (o : HostOp) {s : State} (h : Reachable s) : Reachable (hostOp o s).1

/-- The convention of well-formed programs (10_state.md R26): the pc and every slot of the call stack below `SP` are
even and at or above `0x200`. -/
def PcConvention (s : State) : Prop :=
  s.pc.toNat % 2 = 0 ∧ 0x200 ≤ s.pc.toNat ∧
  ∀ k : Fin 16, k.val < s.sp.toNat → (s.readStk k).toNat % 2 = 0 ∧ 0x200 ≤ (s.readStk k).toNat

/-! ## The end of a run -/

/-- `END_OF_RUN` (92_eei_decisions.md D21) at its recommended value: the instruction at `PC` is a JP to `PC`
(70_reset_and_hazards.md R196; log entry 19). -/
def endOfRun (s : State) : Bool :=
  match fetchInstr s with
  | .ok (.jp nnn) => nnn.toNat == s.pc.toNat
  | _ => false

/-- A run of `k` steps from `s` meets no fault and no refusal. -/
def SafeRun (k : Nat) (s : State) : Prop := ∃ t, Sys2Proof.core.run k s = .next t

end Sys2Proof.Machine
end

