-- ==== Sys2Proof/Certificates/Slice0/Obligations.lean ====
section
/-! DEFINITION. The statements for the provers. Each docstring names the rule of spec/ it formalises. An instruction's
statement holds its encoding (mask and match as its rule gives them; the numbers are the spec's own assignment,
92_eei_decisions.md D1, log entry 1), its completion with its result, its frame, and where it faults. -/

open Sys2Proof Sys2Proof.Machine

/-! ## Encoding (30_encoding.md) -/

/-- Decoding the canonical word of any instruction gives the instruction back, every operand at every value
(R76, R77, R86). -/
def Obligations.DecodeInvertsEncode : Prop := ∀ i : Instr, decode (encode i) = .ok i

/-- A word decodes to `i` exactly when it is the canonical word of `i` up to the ignored bits of R75. -/
def Obligations.DecodeSeesAllButIgnoredBits : Prop :=
  ∀ (w : Word) (i : Instr), decode w = .ok i ↔ w &&& ~~~i.ignoredBits = encode i

/-- The opcode map of R76: 26 rows; a word selects an instruction's row exactly when it decodes to an instruction of
that row; no two rows share a word. -/
def Obligations.OpcodeMapSelectsRows : Prop :=
  opcodeTable.length = 26 ∧
  (∀ (w : Word) (r : OpRow), r ∈ opcodeTable → (w &&& r.mask = r.pat ↔ ∃ i, decode w = .ok i ∧ i.row = r)) ∧
  (∀ i : Instr, i.row ∈ opcodeTable) ∧
  (∀ (w : Word) (r r' : OpRow), r ∈ opcodeTable → r' ∈ opcodeTable → w &&& r.mask = r.pat → w &&& r'.mask = r'.pat →
    r = r')

/-- The illegal words of R80 by class, and their numbers; a step that fetches one faults with the raw word and the pc,
and the host keeps the state as it was. -/
def Obligations.IllegalWordsByClass : Prop :=
  (∀ w : Word, decode w = .error (.illegalWord w) ↔
    (w.toNat / 4096 = 0x0 ∧ w.toNat % 256 ≠ 0xE0 ∧ w.toNat % 256 ≠ 0xEE) ∨
    (w.toNat / 4096 = 0x8 ∧ w.toNat % 16 ∈ [0x8, 0x9, 0xA, 0xB, 0xC, 0xD, 0xF]) ∨
    w.toNat / 4096 = 0xB ∨ w.toNat / 4096 = 0xE ∨
    (w.toNat / 4096 = 0xF ∧ w.toNat % 256 ∉ [0x1E, 0x33, 0x55, 0x65])) ∧
  (∀ w : Word, (∃ i, decode w = .ok i) ∨ decode w = .error (.illegalWord w)) ∧
  illegalCount 0x0 = 4064 ∧ illegalCount 0x8 = 1792 ∧ illegalCount 0xB = 4096 ∧ illegalCount 0xE = 4096 ∧
  illegalCount 0xF = 4032 ∧ ((List.range 16).map illegalCount).sum = 18080 ∧
  (∀ (s : State) (w : Word), fetchWord s = .ok w → decode w = .error (.illegalWord w) →
    hostOp .step s = (s, .faulted (.unimplementedInstruction w s.pc)))

/-- The fields of R72: contiguous, zero-extended, and the word is their concatenation; of the two bytes in memory the
first is `c ++ x` and the second `kk`. -/
def Obligations.FieldsOfTheWord : Prop :=
  ∀ w : Word,
    (fieldC w).toNat = w.toNat / 4096 ∧ (fieldX w).val = w.toNat / 256 % 16 ∧ (fieldY w).val = w.toNat / 16 % 16 ∧
    (fieldN w).val = w.toNat % 16 ∧ (fieldKK w).toNat = w.toNat % 256 ∧ (fieldNNN w).toNat = w.toNat % 4096 ∧
    (fieldKK w).toNat = (fieldY w).val * 16 + (fieldN w).val ∧
    (fieldNNN w).toNat = (fieldX w).val * 256 + (fieldY w).val * 16 + (fieldN w).val ∧
    (highByte w).toNat = (fieldC w).toNat * 16 + (fieldX w).val ∧ lowByte w = fieldKK w ∧
    wordOfBytes (highByte w) (lowByte w) = w ∧ (zext16 (fieldNNN w)).toNat = (fieldNNN w).toNat

/-- Words the spec writes out (95_test_vectors.md) decode to the instructions it names, ignored bits included. -/
def Obligations.WordsOfTheTestVectors : Prop :=
  decode 0x00E0 = .ok .cls ∧ decode 0x07E0 = .ok .cls ∧ decode 0x0AEE = .ok .ret ∧
  decode 0x1234 = .ok (.jp 0x234) ∧ decode 0x2300 = .ok (.call 0x300) ∧ decode 0x6A2F = .ok (.ldImm 10 0x2F) ∧
  decode 0x512F = .ok (.seReg 1 2) ∧ decode 0x8125 = .ok (.subReg 1 2) ∧ decode 0x857E = .ok (.shl 5) ∧
  decode 0xC30F = .ok (.rnd 3 0x0F) ∧ decode 0xD122 = .ok (.drw 1 2 2) ∧ decode 0xF21E = .ok (.addI 2) ∧
  decode 0xF333 = .ok (.ldB 3) ∧ decode 0xF255 = .ok (.storeRegs 2) ∧ decode 0xF165 = .ok (.loadRegs 1) ∧
  decode 0x0000 = .error (.illegalWord 0x0000) ∧ decode 0xB123 = .error (.illegalWord 0xB123)

/-! ## Fetch, step and faults (30_encoding.md R70, 60_exceptions.md) -/

/-- When the two bytes at the pc form a word that decodes to `i`, a step is `i` executed (R177). The step adds nothing
around it: every instruction's own rule writes the pc (10_state.md R25). -/
def Obligations.StepRunsDecodedInstruction : Prop :=
  ∀ (s : State) (i : Instr), s.pc.toNat + 1 ≤ 4095 →
    decode (wordOfBytes (s.readByte s.pc.toNat) (s.readByte (s.pc.toNat + 1))) = .ok i → step s = exec i s

/-- Fetch (R70): the word is `MEM[PC] ++ MEM[PC+1]`, the high byte first, at any pc, odd ones too; it faults exactly
when `PC + 1` lies above 4095. -/
def Obligations.FetchIsBigEndianAndBounded : Prop :=
  ∀ s : State,
    (s.pc.toNat + 1 ≤ 4095 → ∃ w : Word, fetchWord s = .ok w ∧
      w.toNat = (s.readByte s.pc.toNat).toNat * 256 + (s.readByte (s.pc.toNat + 1)).toNat) ∧
    (s.pc.toNat + 1 > 4095 → fetchWord s = .error .outOfBoundsAccess)

/-- The step of R177: the bounds check, then the decoder, then the instruction's rule; a fault leaves the host with the
state as it was; a step that answers `Ok` ran exactly one instruction, left the timers alone and did not clear `DP`. -/
def Obligations.StepIsFetchDecodeExecute : Prop :=
  ∀ s : State,
    (s.pc.toNat + 1 > 4095 → step s = .fault .outOfBoundsAccess) ∧
    (∀ w : Word, s.pc.toNat + 1 ≤ 4095 → w = wordOfBytes (s.readByte s.pc.toNat) (s.readByte (s.pc.toNat + 1)) →
      (∀ i, decode w = .ok i → step s = exec i s) ∧
      (∀ e, decode w = .error e → step s = .fault (.unimplementedInstruction w s.pc))) ∧
    (∀ f, step s = .fault f → hostOp .step s = (s, .faulted f)) ∧
    (∀ t, step s = .next t →
      (∃ i, decode (wordOfBytes (s.readByte s.pc.toNat) (s.readByte (s.pc.toNat + 1))) = .ok i ∧ exec i s = .next t) ∧
      hostOp .step s = (t, .ok) ∧ KeepsTimers s t ∧ (s.dp = true → t.dp = true))

/-- Every fault and when it is raised (R160 to R165), by step and by load; no other fault and no other occasion. -/
def Obligations.FaultsExactly : Prop :=
  (∀ (s : State) (f : Fault), step s = .fault f ↔
    (s.pc.toNat + 1 > 4095 ∧ f = .outOfBoundsAccess) ∨
    (s.pc.toNat + 1 ≤ 4095 ∧ ∃ w : Word, w = wordOfBytes (s.readByte s.pc.toNat) (s.readByte (s.pc.toNat + 1)) ∧
      ((decode w = .error (.illegalWord w) ∧ f = .unimplementedInstruction w s.pc) ∨
       (decode w = .ok .ret ∧ s.sp.toNat = 0 ∧ f = .stackUnderflow) ∨
       (decode w = .ok .ret ∧ s.sp.toNat > 16 ∧ f = .stackOverflow) ∨
       (∃ nnn, decode w = .ok (.call nnn) ∧ s.sp.toNat ≥ 16 ∧ f = .stackOverflow) ∨
       (∃ x y n, decode w = .ok (.drw x y n) ∧ n.val ≥ 1 ∧ s.i.toNat + n.val - 1 > 4095 ∧ f = .outOfBoundsAccess) ∨
       (∃ x, decode w = .ok (.ldB x) ∧ s.i.toNat + 2 > 4095 ∧ f = .outOfBoundsAccess) ∨
       (∃ x, decode w = .ok (.storeRegs x) ∧ s.i.toNat + x.val > 4095 ∧ f = .outOfBoundsAccess) ∨
       (∃ x, decode w = .ok (.loadRegs x) ∧ s.i.toNat + x.val > 4095 ∧ f = .outOfBoundsAccess)))) ∧
  (∀ (img : List Byte) (s : State) (f : Fault), load img s = .fault f ↔ img.length > 3584 ∧ f = .programTooLarge)

/-- No instruction, no step and no load is refused (30_encoding.md R77: the decoder is total). -/
def Obligations.NothingIsRefused : Prop :=
  (∀ (i : Instr) (s : State) (r : Refusal), exec i s ≠ .refused r) ∧
  (∀ (s : State) (r : Refusal), step s ≠ .refused r) ∧
  (∀ (img : List Byte) (s : State) (r : Refusal), load img s ≠ .refused r)

/-- Faults are precise and atomic (R166): after any host operation that answers a fault the state is as before, a failed
load included (R191; the spec's decision D22, log entry 20); and a repeated step answers the same fault (R169; the
spec's decision D14, log entry 10). -/
def Obligations.FaultsChangeNothingAndRepeat : Prop :=
  (∀ (op : HostOp) (s : State) (f : Fault), (hostOp op s).2 = .faulted f → (hostOp op s).1 = s) ∧
  (∀ (s : State) (f : Fault), step s = .fault f →
    hostOp .step s = (s, .faulted f) ∧ hostOp .step (hostOp .step s).1 = (s, .faulted f))

/-! ## Control transfer (40_control_flow.md) -/

/-- RET (R100); where control resumes at 0x1000 the next fetch faults. -/
def Obligations.RetPopsAndAddsTwo : Prop :=
  DecodesAs 0xF0FF 0x00EE (fun _ => .ret) ∧
  (∀ (s : State) (k : Fin 16), s.sp.toNat = k.val + 1 → ∃ t, exec .ret s = .next t ∧
    t.sp.toNat = k.val ∧ t.pc.toNat = ((s.readStk k).toNat + 2) % 65536 ∧ (∀ j, t.readStk j = s.readStk j) ∧
    KeepsV [] s t ∧ KeepsI s t ∧ KeepsTimers s t ∧ KeepsMem s t ∧ KeepsDisplay s t ∧ KeepsDraws s t) ∧
  (∀ s : State, s.sp.toNat = 0 → exec .ret s = .fault .stackUnderflow) ∧
  (∀ s : State, s.sp.toNat > 16 → exec .ret s = .fault .stackOverflow) ∧
  (∀ s t : State, exec .ret s = .next t → t.pc.toNat = 0x1000 → step t = .fault .outOfBoundsAccess)

/-- JP nnn (R101); a JP to its own address leaves the whole state unchanged; the target 0xFFF is accepted and the next
fetch faults. -/
def Obligations.JpSetsPc : Prop :=
  DecodesAs 0xF000 0x1000 (fun w => .jp (fieldNNN w)) ∧
  (∀ (s : State) (nnn : Addr12), ∃ t, exec (.jp nnn) s = .next t ∧ t.pc.toNat = nnn.toNat ∧ ChangesOnly [] s t) ∧
  (∀ (s : State) (nnn : Addr12), nnn.toNat = s.pc.toNat → exec (.jp nnn) s = .next s) ∧
  (∀ s t : State, exec (.jp 0xFFF) s = .next t → step t = .fault .outOfBoundsAccess)

/-- CALL nnn (R102): the pushed value is the address of the CALL itself. -/
def Obligations.CallPushesItsOwnAddress : Prop :=
  DecodesAs 0xF000 0x2000 (fun w => .call (fieldNNN w)) ∧
  (∀ (s : State) (nnn : Addr12) (k : Fin 16), s.sp.toNat = k.val → ∃ t, exec (.call nnn) s = .next t ∧
    t.readStk k = s.pc ∧ t.sp.toNat = k.val + 1 ∧ t.pc.toNat = nnn.toNat ∧ (∀ j, j ≠ k → t.readStk j = s.readStk j) ∧
    KeepsV [] s t ∧ KeepsI s t ∧ KeepsTimers s t ∧ KeepsMem s t ∧ KeepsDisplay s t ∧ KeepsDraws s t) ∧
  (∀ (s : State) (nnn : Addr12), s.sp.toNat ≥ 16 → exec (.call nnn) s = .fault .stackOverflow)

/-- SE Vx,kk (R103); a taken skip at 0xFFC or 0xFFE does not wrap, and the next fetch faults. -/
def Obligations.SkipIfEqualImmediate : Prop :=
  DecodesAs 0xF000 0x3000 (fun w => .seImm (fieldX w) (fieldKK w)) ∧
  (∀ (s : State) (x : Reg) (kk : Byte), ∃ t, exec (.seImm x kk) s = .next t ∧
    t.pc.toNat = (s.pc.toNat + if (s.readV x).toNat = kk.toNat then 4 else 2) % 65536 ∧ ChangesOnly [] s t) ∧
  (∀ (s t : State) (x : Reg) (kk : Byte), exec (.seImm x kk) s = .next t → s.readV x = kk →
    (s.pc = 0xFFC → t.pc = 0x1000 ∧ step t = .fault .outOfBoundsAccess) ∧
    (s.pc = 0xFFE → t.pc = 0x1002 ∧ step t = .fault .outOfBoundsAccess))

/-- SNE Vx,kk (R104), with the corner cases of R103. -/
def Obligations.SkipIfNotEqualImmediate : Prop :=
  DecodesAs 0xF000 0x4000 (fun w => .sneImm (fieldX w) (fieldKK w)) ∧
  (∀ (s : State) (x : Reg) (kk : Byte), ∃ t, exec (.sneImm x kk) s = .next t ∧
    t.pc.toNat = (s.pc.toNat + if (s.readV x).toNat ≠ kk.toNat then 4 else 2) % 65536 ∧ ChangesOnly [] s t) ∧
  (∀ (s t : State) (x : Reg) (kk : Byte), exec (.sneImm x kk) s = .next t → s.readV x ≠ kk →
    (s.pc = 0xFFC → t.pc = 0x1000 ∧ step t = .fault .outOfBoundsAccess) ∧
    (s.pc = 0xFFE → t.pc = 0x1002 ∧ step t = .fault .outOfBoundsAccess))

/-- SE Vx,Vy (R105); the low nibble is not examined. -/
def Obligations.SkipIfRegistersEqual : Prop :=
  DecodesAs 0xF000 0x5000 (fun w => .seReg (fieldX w) (fieldY w)) ∧
  ∀ (s : State) (x y : Reg), ∃ t, exec (.seReg x y) s = .next t ∧
    t.pc.toNat = (s.pc.toNat + if (s.readV x).toNat = (s.readV y).toNat then 4 else 2) % 65536 ∧ ChangesOnly [] s t

/-- SNE Vx,Vy (R106); the low nibble is not examined. -/
def Obligations.SkipIfRegistersDiffer : Prop :=
  DecodesAs 0xF000 0x9000 (fun w => .sneReg (fieldX w) (fieldY w)) ∧
  ∀ (s : State) (x y : Reg), ∃ t, exec (.sneReg x y) s = .next t ∧
    t.pc.toNat = (s.pc.toNat + if (s.readV x).toNat ≠ (s.readV y).toNat then 4 else 2) % 65536 ∧ ChangesOnly [] s t

/-- The call discipline (R108): a CALL and then a RET resume after the CALL with the old stack pointer, and the slot
still holds the CALL's address. -/
def Obligations.CallThenRetResumes : Prop :=
  ∀ (s : State) (nnn : Addr12) (k : Fin 16), s.sp.toNat = k.val → ∃ t u,
    exec (.call nnn) s = .next t ∧ exec .ret t = .next u ∧
    u.pc.toNat = (s.pc.toNat + 2) % 65536 ∧ u.sp = s.sp ∧ t.readStk k = s.pc ∧ u.readStk k = s.pc

/-! ## Immediate operands (41_immediate.md) -/

/-- LD Vx,kk (R110). -/
def Obligations.LoadImmediate : Prop :=
  DecodesAs 0xF000 0x6000 (fun w => .ldImm (fieldX w) (fieldKK w)) ∧
  ∀ (s : State) (x : Reg) (kk : Byte), ∃ t, exec (.ldImm x kk) s = .next t ∧
    t.readV x = kk ∧ Advances s t ∧ ChangesOnly [x] s t

/-- ADD Vx,kk (R111): wraps modulo 256, VF not written unless it is the destination. -/
def Obligations.AddImmediateWrapsWithoutFlag : Prop :=
  DecodesAs 0xF000 0x7000 (fun w => .addImm (fieldX w) (fieldKK w)) ∧
  ∀ (s : State) (x : Reg) (kk : Byte), ∃ t, exec (.addImm x kk) s = .next t ∧
    (t.readV x).toNat = ((s.readV x).toNat + kk.toNat) % 256 ∧ Advances s t ∧ ChangesOnly [x] s t

/-- LD I,nnn (R112): the high bits of `I` become 0. -/
def Obligations.LoadAddressRegister : Prop :=
  DecodesAs 0xF000 0xA000 (fun w => .ldI (fieldNNN w)) ∧
  ∀ (s : State) (nnn : Addr12), ∃ t, exec (.ldI nnn) s = .next t ∧ t.i.toNat = nnn.toNat ∧ Advances s t ∧
    KeepsV [] s t ∧ KeepsStack s t ∧ KeepsTimers s t ∧ KeepsMem s t ∧ KeepsDisplay s t ∧ KeepsDraws s t

/-- RND Vx,kk (R113): the masked random byte. That the byte is the free value `Config.drawByte` of the counter `draws`
is the model's form of `draw_byte()` (log entry 11). -/
def Obligations.RandomIsMasked : Prop :=
  DecodesAs 0xF000 0xC000 (fun w => .rnd (fieldX w) (fieldKK w)) ∧
  ∀ (s : State) (x : Reg) (kk : Byte), ∃ t, exec (.rnd x kk) s = .next t ∧
    t.readV x = Config.drawByte s.draws &&& kk ∧
    (∀ b, kk.getLsbD b = false → (t.readV x).getLsbD b = false) ∧ (kk = 0x00 → t.readV x = 0) ∧
    (kk = 0xFF → t.readV x = Config.drawByte s.draws) ∧
    Advances s t ∧ t.draws = s.draws + 1 ∧
    KeepsV [x] s t ∧ KeepsI s t ∧ KeepsStack s t ∧ KeepsTimers s t ∧ KeepsMem s t ∧ KeepsDisplay s t

/-! ## ALU (42_alu.md) -/

/-- LD Vx,Vy (R121). -/
def Obligations.CopyRegister : Prop :=
  DecodesAs 0xF00F 0x8000 (fun w => .ldReg (fieldX w) (fieldY w)) ∧
  ∀ (s : State) (x y : Reg), ∃ t, exec (.ldReg x y) s = .next t ∧
    t.readV x = s.readV y ∧ Advances s t ∧ ChangesOnly [x] s t

/-- OR Vx,Vy (R122): bit by bit, VF not written unless it is the destination. -/
def Obligations.OrRegisters : Prop :=
  DecodesAs 0xF00F 0x8001 (fun w => .orReg (fieldX w) (fieldY w)) ∧
  ∀ (s : State) (x y : Reg), ∃ t, exec (.orReg x y) s = .next t ∧
    (∀ b, (t.readV x).getLsbD b = ((s.readV x).getLsbD b || (s.readV y).getLsbD b)) ∧
    Advances s t ∧ ChangesOnly [x] s t

/-- AND Vx,Vy (R123): bit by bit, VF not written unless it is the destination. -/
def Obligations.AndRegisters : Prop :=
  DecodesAs 0xF00F 0x8002 (fun w => .andReg (fieldX w) (fieldY w)) ∧
  ∀ (s : State) (x y : Reg), ∃ t, exec (.andReg x y) s = .next t ∧
    (∀ b, (t.readV x).getLsbD b = ((s.readV x).getLsbD b && (s.readV y).getLsbD b)) ∧
    Advances s t ∧ ChangesOnly [x] s t

/-- XOR Vx,Vy (R124): bit by bit, VF not written unless it is the destination. -/
def Obligations.XorRegisters : Prop :=
  DecodesAs 0xF00F 0x8003 (fun w => .xorReg (fieldX w) (fieldY w)) ∧
  ∀ (s : State) (x y : Reg), ∃ t, exec (.xorReg x y) s = .next t ∧
    (∀ b, (t.readV x).getLsbD b = ((s.readV x).getLsbD b ^^ (s.readV y).getLsbD b)) ∧
    Advances s t ∧ ChangesOnly [x] s t

/-- ADD Vx,Vy (R125): VF ends as the carry whatever `x` is; the sum is in Vx unless that is VF. -/
def Obligations.AddRegistersCarry : Prop :=
  DecodesAs 0xF00F 0x8004 (fun w => .addReg (fieldX w) (fieldY w)) ∧
  ∀ (s : State) (x y : Reg), ∃ t, exec (.addReg x y) s = .next t ∧
    (x ≠ Reg.vf → (t.readV x).toNat = ((s.readV x).toNat + (s.readV y).toNat) % 256) ∧
    (t.readV Reg.vf).toNat = (if (s.readV x).toNat + (s.readV y).toNat > 255 then 1 else 0) ∧
    Advances s t ∧ ChangesOnly [x, Reg.vf] s t

/-- SUB Vx,Vy (R126): VF ends as `a > b`, strictly; the difference is in Vx unless that is VF. -/
def Obligations.SubRegistersStrictFlag : Prop :=
  DecodesAs 0xF00F 0x8005 (fun w => .subReg (fieldX w) (fieldY w)) ∧
  ∀ (s : State) (x y : Reg), ∃ t, exec (.subReg x y) s = .next t ∧
    (x ≠ Reg.vf → ((t.readV x).toNat : Int) = ((s.readV x).toNat - (s.readV y).toNat : Int) % 256) ∧
    (t.readV Reg.vf).toNat = (if (s.readV x).toNat > (s.readV y).toNat then 1 else 0) ∧
    Advances s t ∧ ChangesOnly [x, Reg.vf] s t

/-- SHR Vx (R127): shifts Vx in place whatever the `y` field is; VF ends as the old bit 0. -/
def Obligations.ShiftRightInPlace : Prop :=
  DecodesAs 0xF00F 0x8006 (fun w => .shr (fieldX w)) ∧
  ∀ (s : State) (x : Reg), ∃ t, exec (.shr x) s = .next t ∧
    (x ≠ Reg.vf → (t.readV x).toNat = (s.readV x).toNat / 2) ∧
    (t.readV Reg.vf).toNat = (s.readV x).toNat % 2 ∧ Advances s t ∧ ChangesOnly [x, Reg.vf] s t

/-- SUBN Vx,Vy (R128): `b - a` to Vx; VF ends as `b > a`, strictly. -/
def Obligations.SubReversedStrictFlag : Prop :=
  DecodesAs 0xF00F 0x8007 (fun w => .subnReg (fieldX w) (fieldY w)) ∧
  ∀ (s : State) (x y : Reg), ∃ t, exec (.subnReg x y) s = .next t ∧
    (x ≠ Reg.vf → ((t.readV x).toNat : Int) = ((s.readV y).toNat - (s.readV x).toNat : Int) % 256) ∧
    (t.readV Reg.vf).toNat = (if (s.readV y).toNat > (s.readV x).toNat then 1 else 0) ∧
    Advances s t ∧ ChangesOnly [x, Reg.vf] s t

/-- SHL Vx (R129): shifts Vx in place whatever the `y` field is; VF ends as the old bit 7, as 0 or 1. -/
def Obligations.ShiftLeftInPlace : Prop :=
  DecodesAs 0xF00F 0x800E (fun w => .shl (fieldX w)) ∧
  ∀ (s : State) (x : Reg), ∃ t, exec (.shl x) s = .next t ∧
    (x ≠ Reg.vf → (t.readV x).toNat = 2 * (s.readV x).toNat % 256) ∧
    (t.readV Reg.vf).toNat = (s.readV x).toNat / 128 ∧ Advances s t ∧ ChangesOnly [x, Reg.vf] s t

/-- The table of R131: what VF holds when it is the destination or a source of a flag-writing ALU instruction, for the
old value `F` of VF. -/
def Obligations.FlagWinsOverResultInVf : Prop :=
  ∀ (s : State) (x y : Reg), x ≠ Reg.vf → y ≠ Reg.vf →
    let F := (s.readV Reg.vf).toNat
    let a := (s.readV x).toNat
    let b := (s.readV y).toNat
    (∀ t, exec (.addReg Reg.vf y) s = .next t → (t.readV Reg.vf).toNat = if F + b > 255 then 1 else 0) ∧
    (∀ t, exec (.addReg x Reg.vf) s = .next t →
      (t.readV x).toNat = (a + F) % 256 ∧ (t.readV Reg.vf).toNat = if a + F > 255 then 1 else 0) ∧
    (∀ t, exec (.addReg Reg.vf Reg.vf) s = .next t → (t.readV Reg.vf).toNat = F / 128) ∧
    (∀ t, exec (.subReg Reg.vf y) s = .next t → (t.readV Reg.vf).toNat = if F > b then 1 else 0) ∧
    (∀ t, exec (.subnReg Reg.vf y) s = .next t → (t.readV Reg.vf).toNat = if b > F then 1 else 0) ∧
    (∀ t, exec (.subReg Reg.vf Reg.vf) s = .next t → (t.readV Reg.vf).toNat = 0) ∧
    (∀ t, exec (.subnReg Reg.vf Reg.vf) s = .next t → (t.readV Reg.vf).toNat = 0) ∧
    (∀ t, exec (.shr Reg.vf) s = .next t → (t.readV Reg.vf).toNat = F % 2) ∧
    (∀ t, exec (.shl Reg.vf) s = .next t → (t.readV Reg.vf).toNat = F / 128)

/-! ## Display (43_display.md) -/

/-- CLS (R140). -/
def Obligations.ClearDisplay : Prop :=
  DecodesAs 0xF0FF 0x00E0 (fun _ => .cls) ∧
  ∀ s : State, ∃ t, exec .cls s = .next t ∧ (∀ px py, t.fb.cell px py = false) ∧ t.dp = true ∧ Advances s t ∧
    KeepsV [] s t ∧ KeepsI s t ∧ KeepsStack s t ∧ KeepsTimers s t ∧ KeepsMem s t ∧ KeepsDraws s t

/-- DRW Vx,Vy,n (R142, R144): a cell changes exactly when a 1 bit of the sprite lands on it, wrapped per pixel; VF ends
as 1 exactly when such a cell was 1; origin and bytes are those from before the instruction; out of range nothing is
drawn and the step faults. -/
def Obligations.DrawSpriteXorsAndCollides : Prop :=
  DecodesAs 0xF000 0xD000 (fun w => .drw (fieldX w) (fieldY w) (fieldN w)) ∧
  (∀ (s : State) (x y : Reg) (n : Height), n.val = 0 ∨ s.base + n.val - 1 ≤ 4095 →
    ∃ t, exec (.drw x y n) s = .next t ∧
      (∀ px py, t.fb.cell px py ≠ s.fb.cell px py ↔ SpriteCovers s x y n px py) ∧
      ((∃ px py, SpriteCovers s x y n px py ∧ s.fb.cell px py = true) → t.readV Reg.vf = 1) ∧
      (¬ (∃ px py, SpriteCovers s x y n px py ∧ s.fb.cell px py = true) → t.readV Reg.vf = 0) ∧
      t.dp = true ∧ Advances s t ∧
      KeepsV [Reg.vf] s t ∧ KeepsI s t ∧ KeepsStack s t ∧ KeepsTimers s t ∧ KeepsMem s t ∧ KeepsDraws s t) ∧
  (∀ (s : State) (x y : Reg) (n : Height), n.val ≥ 1 → s.base + n.val - 1 > 4095 →
    exec (.drw x y n) s = .fault .outOfBoundsAccess)

/-- XOR compositing is its own inverse (R146): the second DRW of one sprite at one origin restores every cell, and it
reports a collision exactly when a 1 bit landed on a cell the first left at 1. -/
def Obligations.DrawTwiceRestores : Prop :=
  ∀ (s t : State) (x y : Reg) (n : Height), exec (.drw x y n) s = .next t →
    (t.readV x = s.readV x → t.readV y = s.readV y → ∃ u, exec (.drw x y n) t = .next u ∧
      (∀ px py, u.fb.cell px py = s.fb.cell px py) ∧
      (u.readV Reg.vf = 1 ↔ ∃ px py, SpriteCovers s x y n px py ∧ t.fb.cell px py = true) ∧
      ((∀ px py, s.fb.cell px py = false) → (∃ row < n.val, s.readByte (s.base + row) ≠ 0) → u.readV Reg.vf = 1)) ∧
    ((∀ row < n.val, s.readByte (s.base + row) = 0) →
      (∀ px py, t.fb.cell px py = s.fb.cell px py) ∧ t.readV Reg.vf = 0 ∧ t.dp = true)

/-! ## Address register and memory (44_memory_ops.md) -/

/-- ADD I,Vx (R150): modulo 65536, no flag, no fault. -/
def Obligations.AddToAddressRegister : Prop :=
  DecodesAs 0xF0FF 0xF01E (fun w => .addI (fieldX w)) ∧
  ∀ (s : State) (x : Reg), ∃ t, exec (.addI x) s = .next t ∧
    t.i.toNat = (s.i.toNat + (s.readV x).toNat) % 65536 ∧ Advances s t ∧
    KeepsV [] s t ∧ KeepsStack s t ∧ KeepsTimers s t ∧ KeepsMem s t ∧ KeepsDisplay s t ∧ KeepsDraws s t

/-- LD B,Vx (R151, R152): the three decimal digits at `I .. I+2`; out of range nothing is written. -/
def Obligations.StoreDecimalDigits : Prop :=
  DecodesAs 0xF0FF 0xF033 (fun w => .ldB (fieldX w)) ∧
  (∀ (s : State) (x : Reg), s.base + 2 ≤ 4095 → ∃ t, exec (.ldB x) s = .next t ∧
    (t.readByte s.base).toNat = (s.readV x).toNat / 100 ∧
    (t.readByte (s.base + 1)).toNat = (s.readV x).toNat / 10 % 10 ∧
    (t.readByte (s.base + 2)).toNat = (s.readV x).toNat % 10 ∧
    (s.readV x).toNat = 100 * (t.readByte s.base).toNat + 10 * (t.readByte (s.base + 1)).toNat +
      (t.readByte (s.base + 2)).toNat ∧
    KeepsMemOutside s.base 3 s t ∧ Advances s t ∧
    KeepsV [] s t ∧ KeepsI s t ∧ KeepsStack s t ∧ KeepsTimers s t ∧ KeepsDisplay s t ∧ KeepsDraws s t) ∧
  (∀ (s : State) (x : Reg), s.base + 2 > 4095 → exec (.ldB x) s = .fault .outOfBoundsAccess)

/-- LD [I],Vx (R153): register `k` to address `I + k` for `k <= x`; `I` stays; out of range nothing is written. -/
def Obligations.StoreRegisterRange : Prop :=
  DecodesAs 0xF0FF 0xF055 (fun w => .storeRegs (fieldX w)) ∧
  (∀ (s : State) (x : Reg), s.base + x.val ≤ 4095 → ∃ t, exec (.storeRegs x) s = .next t ∧
    (∀ k : Reg, k ≤ x → t.readByte (s.base + k.val) = s.readV k) ∧
    KeepsMemOutside s.base (x.val + 1) s t ∧ Advances s t ∧
    KeepsV [] s t ∧ KeepsI s t ∧ KeepsStack s t ∧ KeepsTimers s t ∧ KeepsDisplay s t ∧ KeepsDraws s t) ∧
  (∀ (s : State) (x : Reg), s.base + x.val > 4095 → exec (.storeRegs x) s = .fault .outOfBoundsAccess)

/-- LD Vx,[I] (R154): address `I + k` to register `k` for `k <= x`, the registers above as before; `I` stays; out of
range no register is written. -/
def Obligations.LoadRegisterRange : Prop :=
  DecodesAs 0xF0FF 0xF065 (fun w => .loadRegs (fieldX w)) ∧
  (∀ (s : State) (x : Reg), s.base + x.val ≤ 4095 → ∃ t, exec (.loadRegs x) s = .next t ∧
    (∀ k : Reg, k ≤ x → t.readV k = s.readByte (s.base + k.val)) ∧ (∀ k : Reg, x < k → t.readV k = s.readV k) ∧
    Advances s t ∧
    KeepsI s t ∧ KeepsStack s t ∧ KeepsTimers s t ∧ KeepsMem s t ∧ KeepsDisplay s t ∧ KeepsDraws s t) ∧
  (∀ (s : State) (x : Reg), s.base + x.val > 4095 → exec (.loadRegs x) s = .fault .outOfBoundsAccess)

/-- The round trip of R155: a range store, then a range load with the same `x` and `I` and the stored bytes untouched,
restores V0..Vx. -/
def Obligations.RangeStoreThenLoadRestores : Prop :=
  ∀ (s t t' : State) (x : Reg), exec (.storeRegs x) s = .next t → t'.i = s.i →
    (∀ a, s.base ≤ a → a ≤ s.base + x.val → t'.readByte a = t.readByte a) →
    ∃ u, exec (.loadRegs x) t' = .next u ∧ ∀ k : Reg, k ≤ x → u.readV k = s.readV k

/-! ## Host operations (60_exceptions.md R172 to R180, 70_reset_and_hazards.md) -/

/-- load (R191): an image that fits resets everything and lands verbatim at 0x200; one that does not changes nothing. -/
def Obligations.LoadResetsEverything : Prop :=
  (∀ (s : State) (img : List Byte), img.length ≤ 3584 → ∃ t, hostOp (.load img) s = (t, .ok) ∧
    (∀ r, t.readV r = 0) ∧ t.i = 0 ∧ t.sp = 0 ∧ (∀ k, t.readStk k = 0) ∧ t.dt = 0 ∧ t.st = 0 ∧
    (∀ k (h : k < img.length), t.readByte (0x200 + k) = img[k]) ∧
    (∀ a, a < 0x200 ∨ 0x200 + img.length ≤ a → t.readByte a = 0) ∧
    (∀ px py, t.fb.cell px py = false) ∧ t.dp = false ∧ t.pc = 0x200 ∧ t.mem.wf = true) ∧
  (∀ (s : State) (img : List Byte), img.length > 3584 → hostOp (.load img) s = (s, .faulted .programTooLarge))

/-- The boundary of the size check (R192): 3584 bytes succeed and fill 0x200 to 0xFFF exactly, 3585 fail. -/
def Obligations.LoadSizeBoundary : Prop :=
  ∀ (s : State) (img : List Byte),
    (img.length = 3584 → ∃ t, hostOp (.load img) s = (t, .ok) ∧
      (∀ a, 0x200 ≤ a → a ≤ 0xFFF → some (t.readByte a) = img[a - 0x200]?) ∧ ∀ a, a < 0x200 → t.readByte a = 0) ∧
    (img.length = 3585 → (hostOp (.load img) s).2 = .faulted .programTooLarge)

/-- tick_timers (R172): both timers one lower, never below zero; nothing else changes and it never faults. -/
def Obligations.TimerTickLowersBoth : Prop :=
  ∀ s : State, ∃ t, hostOp .tickTimers s = (t, .ok) ∧
    t.dt.toNat = s.dt.toNat - 1 ∧ t.st.toNat = s.st.toNat - 1 ∧ t.pc = s.pc ∧
    KeepsV [] s t ∧ KeepsI s t ∧ KeepsStack s t ∧ KeepsMem s t ∧ KeepsDisplay s t ∧ KeepsDraws s t

/-- is_dirty (R178): the old `DP` is returned and cleared, nothing else changes; a second call returns false. -/
def Obligations.DirtyQueryConsumesFlag : Prop :=
  ∀ s : State, ∃ t, hostOp .isDirty s = (t, .dirty s.dp) ∧ t.dp = false ∧ t.pc = s.pc ∧
    (∀ px py, t.fb.cell px py = s.fb.cell px py) ∧
    KeepsV [] s t ∧ KeepsI s t ∧ KeepsStack s t ∧ KeepsTimers s t ∧ KeepsMem s t ∧ KeepsDraws s t ∧
    hostOp .isDirty t = (t, .dirty false)

/-- read_pixel (R179): the cell, for coordinates on the surface, and no change; it is entry `py * 64 + px` of the
flattened surface (10_state.md R30). Coordinates off the surface are no legal question and the model refuses them by
name (log entry 17). -/
def Obligations.PixelQueryReads : Prop :=
  (∀ (s : State) (px : Fin 64) (py : Fin 32), hostOp (.readPixel px.val py.val) s = (s, .pixel (s.fb.cell px py)) ∧
    s.fb.flat[py.val * 64 + px.val]? = some (s.fb.cell px py)) ∧
  (∀ (s : State) (x y : Nat), x > 63 ∨ y > 31 → hostOp (.readPixel x y) s = (s, .refused .pixelOffSurface))

/-- Introspection (R180): the pc, the stack pointer, the stack and the instruction the next step would execute, and no
change of state. Where the fetch would fault or the word is illegal the model refuses (log entry 18). -/
def Obligations.IntrospectionIsReadOnly : Prop :=
  ∀ s : State,
    hostOp (.inspect .programCounter) s = (s, .programCounter s.pc) ∧
    hostOp (.inspect .stackPointer) s = (s, .stackPointer s.sp) ∧
    hostOp (.inspect .stackContents) s = (s, .stackContents s.stk) ∧
    (∀ i, hostOp (.inspect .nextInstruction) s = (s, .nextInstruction i) ↔ s.pc.toNat + 1 ≤ 4095 ∧
      decode (wordOfBytes (s.readByte s.pc.toNat) (s.readByte (s.pc.toNat + 1))) = .ok i) ∧
    (hostOp (.inspect .nextInstruction) s).1 = s

/-- Power-on (R190): everything 0; a step before any load returns `UnimplementedInstruction(0x0000, 0x0000)`
(R194, which the spec derives from the word 0x0000 being illegal, R80; D5, log entry 3). -/
def Obligations.PowerOnIsAllZero : Prop :=
  (∀ r, State.powerOn.readV r = 0) ∧ State.powerOn.i = 0 ∧ State.powerOn.pc = 0 ∧ State.powerOn.sp = 0 ∧
  (∀ k, State.powerOn.readStk k = 0) ∧ State.powerOn.dt = 0 ∧ State.powerOn.st = 0 ∧
  (∀ a, State.powerOn.readByte a = 0) ∧ (∀ px py, State.powerOn.fb.cell px py = false) ∧ State.powerOn.dp = false ∧
  step State.powerOn = .fault (.unimplementedInstruction 0x0000 0x0000)

/-! ## Invariants and whole-machine rules -/

/-- Every step keeps the invariant `Inv`: canonical memory, `SP <= 16`, the bounds on the pc and on the pushed
addresses, both timers 0. -/
def Obligations.StepKeepsInvariant : Prop := ∀ s t : State, Inv s → step s = .next t → Inv t

/-- The invariant holds after reset and after power-on. -/
def Obligations.InvariantHoldsAtReset : Prop := Inv State.reset ∧ Inv State.powerOn

/-- `0 <= SP <= 16` in every reachable state, so RET's defensive check never fires; only CALL raises SP and only RET
lowers it, by one, and they fault instead at 16 and at 0 (R37). -/
def Obligations.ReachableStackPointerBounded : Prop :=
  (∀ s, Reachable s → s.sp.toNat ≤ 16) ∧
  (∀ s, Reachable s → exec .ret s ≠ .fault .stackOverflow) ∧
  (∀ (i : Instr) (s t : State), exec i s = .next t →
    (s.sp.toNat < t.sp.toNat → (∃ nnn, i = .call nnn) ∧ t.sp.toNat = s.sp.toNat + 1) ∧
    (t.sp.toNat < s.sp.toNat → i = .ret ∧ s.sp.toNat = t.sp.toNat + 1)) ∧
  (∀ (s : State) (nnn : Addr12), s.sp.toNat = 16 → exec (.call nnn) s = .fault .stackOverflow) ∧
  (∀ s : State, s.sp.toNat = 0 → exec .ret s = .fault .stackUnderflow)

/-- `DT = 0` and `ST = 0` in every state reachable from power-on or a load by steps and host operations (R38), and
there the timer tick changes nothing (R173). -/
def Obligations.ReachableTimersAreZero : Prop :=
  ∀ s, Reachable s → s.dt = 0 ∧ s.st = 0 ∧ hostOp .tickTimers s = (s, .ok)

/-- In every reachable state the pc is at most 0x1002, every stack slot at most 0xFFE, and memory is canonical (R26,
R100). -/
def Obligations.ReachablePcAndMemoryBounded : Prop :=
  ∀ s, Reachable s → s.pc.toNat ≤ 0x1002 ∧ (∀ k, (s.readStk k).toNat ≤ 0xFFE) ∧ s.mem.wf = true ∧
    ∀ a, 4096 ≤ a → s.readByte a = 0

/-- A program keeps the pc even and at or above 0x200 by jumping and calling only to such addresses (R26). -/
def Obligations.WellFormedProgramsKeepPcConvention : Prop :=
  ∀ (s t : State) (i : Instr), Inv s → PcConvention s → fetchInstr s = .ok i → i.wf = true → step s = .next t →
    PcConvention t

/-- Which instructions change which component (10_state.md R22, R24, R27 to R31; memory: 20_memory.md R52): nothing else
does. The last clause is about the model's own count of random draws (log entry 11). -/
def Obligations.ComponentsHaveFewWriters : Prop :=
  ∀ (i : Instr) (s t : State), exec i s = .next t →
    (t.i ≠ s.i → (∃ nnn, i = .ldI nnn) ∨ ∃ x, i = .addI x) ∧
    (t.sp ≠ s.sp → i = .ret ∨ ∃ nnn, i = .call nnn) ∧
    (t.stk ≠ s.stk → ∃ nnn, i = .call nnn) ∧
    (t.dt = s.dt ∧ t.st = s.st) ∧
    (t.mem ≠ s.mem → (∃ x, i = .ldB x) ∨ ∃ x, i = .storeRegs x) ∧
    (t.fb ≠ s.fb ∨ t.dp ≠ s.dp → i = .cls ∨ ∃ x y n, i = .drw x y n) ∧
    ((i = .cls ∨ ∃ x y n, i = .drw x y n) → t.dp = true) ∧
    (writesFlag i = true → t.readV Reg.vf = 0 ∨ t.readV Reg.vf = 1) ∧
    (t.readV Reg.vf ≠ s.readV Reg.vf → writesFlag i = true ∨ Reg.vf ∈ writesV i) ∧
    (t.draws ≠ s.draws → ∃ x kk, i = .rnd x kk)

/-- The table of R23: an instruction writes no general register outside its `w` entries, and a register outside its `r`
entries has no influence on it: with another value there, the same fault comes, or the same next state but for that
register where it is not written. -/
def Obligations.RegistersReadAndWritten : Prop :=
  ∀ (i : Instr) (s : State),
    (∀ t, exec i s = .next t → KeepsV (writesV i) s t) ∧
    (∀ (r : Reg) (b : Byte), r ∉ readsV i →
      (∀ f, exec i s = .fault f → exec i (s.setV r b) = .fault f) ∧
      (∀ t, exec i s = .next t →
        exec i (s.setV r b) = .next (if r ∈ writesV i then t else t.setV r b)))

/-- Instruction-fetch coherence (R60): a word stored by LD [I],Vx where the next fetch reads is what it fetches, the
lower register as the high byte. -/
def Obligations.StoresAreSeenByTheNextFetch : Prop :=
  ∀ (s t : State) (x k : Reg) (h : k.val + 1 ≤ x.val), exec (.storeRegs x) s = .next t →
    t.pc.toNat = s.base + k.val →
    fetchWord t = .ok (wordOfBytes (s.readV k) (s.readV ⟨k.val + 1, Nat.lt_of_le_of_lt h x.isLt⟩))

/-- A JP to its own address is the idiom for the end of a run (R196): from then on every step leaves the state exactly
as it was. The predicate is the recommended value of the parameter `END_OF_RUN` (log entry 19). -/
def Obligations.EndOfRunIsFixed : Prop :=
  ∀ s : State, endOfRun s = true → step s = .next s ∧ ∀ k, Sys2Proof.core.run k s = .next s

/-- Only RND depends on the random source (41_immediate.md R114): with another count of draws, every other instruction
gives the same fault or the same next state but for that count. -/
def Obligations.OnlyRndDependsOnTheRandomSource : Prop :=
  ∀ (i : Instr) (s : State) (d : Nat), (∀ x kk, i ≠ .rnd x kk) →
    (∀ f, exec i s = .fault f → exec i { s with draws := d } = .fault f) ∧
    (∀ t, exec i s = .next t → t.draws = s.draws ∧ exec i { s with draws := d } = .next { t with draws := d })
end

