-- ==== Sys2Proof/Laws/Decode.lean ====
section
/-! SUPPORT. Fields, masks and encoded words as numbers: with these, facts about decoding and encoding are linear
arithmetic (30_encoding.md R72, R73, R76). -/

namespace Sys2Proof

/-! ## Fields (R72) -/

@[simp] theorem fieldC_toNat (w : Word) : (fieldC w).toNat = w.toNat / 4096 := by
  have := w.isLt
  simp [fieldC, Nat.shiftRight_eq_div_pow]; omega

@[simp] theorem fieldX_val (w : Word) : (fieldX w).val = w.toNat / 256 % 16 := by
  simp [fieldX, Nat.shiftRight_eq_div_pow]

@[simp] theorem fieldY_val (w : Word) : (fieldY w).val = w.toNat / 16 % 16 := by
  simp [fieldY, Nat.shiftRight_eq_div_pow]

@[simp] theorem fieldN_val (w : Word) : (fieldN w).val = w.toNat % 16 := by
  simp [fieldN]

@[simp] theorem fieldKK_toNat (w : Word) : (fieldKK w).toNat = w.toNat % 256 := by
  simp [fieldKK]

@[simp] theorem fieldNNN_toNat (w : Word) : (fieldNNN w).toNat = w.toNat % 4096 := by
  simp [fieldNNN]

/-! ## Bytes (R55) -/

@[simp] theorem highByte_toNat (w : Word) : (highByte w).toNat = w.toNat / 256 := by
  have := w.isLt
  simp [highByte, Nat.shiftRight_eq_div_pow]; omega

@[simp] theorem lowByte_toNat (w : Word) : (lowByte w).toNat = w.toNat % 256 := by
  simp [lowByte]

@[simp] theorem wordOfBytes_toNat (hi lo : Byte) : (wordOfBytes hi lo).toNat = hi.toNat * 256 + lo.toNat := by
  show (hi ++ lo : BitVec (8 + 8)).toNat = _
  rw [BitVec.toNat_append, ← Nat.shiftLeft_add_eq_or_of_lt lo.isLt, Nat.shiftLeft_eq]

@[simp] theorem wordOfBytes_high_low (w : Word) : wordOfBytes (highByte w) (lowByte w) = w := by
  apply BitVec.eq_of_toNat_eq
  rw [wordOfBytes_toNat, highByte_toNat, lowByte_toNat]
  omega

/-! ## Masks (R76) -/

theorem and_F000_toNat (w : Word) : (w &&& (0xF000 : Word)).toNat = w.toNat / 4096 * 4096 := by
  have h : w &&& (0xF000 : Word) = (w >>> 12) <<< 12 := by
    apply BitVec.eq_of_getLsbD_eq
    intro i hi
    interval_cases i <;> simp
  have := w.isLt
  rw [h]; simp [Nat.shiftRight_eq_div_pow, Nat.shiftLeft_eq]; omega

theorem and_00FF_toNat (w : Word) : (w &&& (0x00FF : Word)).toNat = w.toNat % 256 := by
  simpa using Nat.and_two_pow_sub_one_eq_mod w.toNat 8

theorem and_000F_toNat (w : Word) : (w &&& (0x000F : Word)).toNat = w.toNat % 16 := by
  simpa using Nat.and_two_pow_sub_one_eq_mod w.toNat 4

theorem and_F0FF_toNat (w : Word) : (w &&& (0xF0FF : Word)).toNat = w.toNat / 4096 * 4096 + w.toNat % 256 := by
  have h : w &&& (0xF0FF : Word) = (w &&& (0xF000 : Word)) + (w &&& (0x00FF : Word)) := by
    rw [BitVec.add_eq_or_of_and_eq_zero] <;>
      (apply BitVec.eq_of_getLsbD_eq; intro i hi; interval_cases i <;> simp)
  have := w.isLt
  rw [h, BitVec.toNat_add, and_F000_toNat, and_00FF_toNat]; omega

theorem and_F00F_toNat (w : Word) : (w &&& (0xF00F : Word)).toNat = w.toNat / 4096 * 4096 + w.toNat % 16 := by
  have h : w &&& (0xF00F : Word) = (w &&& (0xF000 : Word)) + (w &&& (0x000F : Word)) := by
    rw [BitVec.add_eq_or_of_and_eq_zero] <;>
      (apply BitVec.eq_of_getLsbD_eq; intro i hi; interval_cases i <;> simp)
  have := w.isLt
  rw [h, BitVec.toNat_add, and_F000_toNat, and_000F_toNat]; omega

theorem and_0F00_toNat (w : Word) : (w &&& (0x0F00 : Word)).toNat = w.toNat / 256 % 16 * 256 := by
  have h : w &&& (0x0F00 : Word) = ((w >>> 8) &&& (0x000F : Word)) <<< 8 := by
    apply BitVec.eq_of_getLsbD_eq
    intro i hi
    interval_cases i <;> simp
  have := w.isLt
  rw [h, BitVec.toNat_shiftLeft, and_000F_toNat]
  simp [Nat.shiftRight_eq_div_pow, Nat.shiftLeft_eq]; omega

theorem and_00F0_toNat (w : Word) : (w &&& (0x00F0 : Word)).toNat = w.toNat / 16 % 16 * 16 := by
  have h : w &&& (0x00F0 : Word) = ((w >>> 4) &&& (0x000F : Word)) <<< 4 := by
    apply BitVec.eq_of_getLsbD_eq
    intro i hi
    interval_cases i <;> simp
  have := w.isLt
  rw [h, BitVec.toNat_shiftLeft, and_000F_toNat]
  simp [Nat.shiftRight_eq_div_pow, Nat.shiftLeft_eq]; omega

theorem and_zero_toNat (w : Word) : (w &&& (0 : Word)).toNat = 0 := by simp

/-- Two words are equal when their numbers are. -/
theorem word_eq_iff (a b : Word) : a = b ↔ a.toNat = b.toNat := BitVec.toNat_inj.symm

/-! ## Encoded words (R73) -/

@[simp] theorem nibble_toNat (r : Fin 16) : (nibble r).toNat = r.val := rfl

theorem encADDR_toNat (c : BitVec 4) (nnn : Addr12) : (encADDR c nnn).toNat = c.toNat * 4096 + nnn.toNat := by
  show (c ++ nnn : BitVec (4 + 12)).toNat = _
  rw [BitVec.toNat_append, ← Nat.shiftLeft_add_eq_or_of_lt nnn.isLt, Nat.shiftLeft_eq]

theorem append_4_4_8_toNat (c x : BitVec 4) (kk : Byte) :
    BitVec.toNat (w := 16) (c ++ x ++ kk) = c.toNat * 4096 + x.toNat * 256 + kk.toNat := by
  show (c ++ x ++ kk : BitVec (4 + 4 + 8)).toNat = _
  rw [BitVec.toNat_append, BitVec.toNat_append, ← Nat.shiftLeft_add_eq_or_of_lt x.isLt,
    ← Nat.shiftLeft_add_eq_or_of_lt kk.isLt]
  simp only [Nat.shiftLeft_eq]; omega

theorem append_4_4_4_4_toNat (c x y n : BitVec 4) :
    BitVec.toNat (w := 16) (c ++ x ++ y ++ n) = c.toNat * 4096 + x.toNat * 256 + y.toNat * 16 + n.toNat := by
  show (c ++ x ++ y ++ n : BitVec (4 + 4 + 4 + 4)).toNat = _
  rw [BitVec.toNat_append, BitVec.toNat_append, BitVec.toNat_append, ← Nat.shiftLeft_add_eq_or_of_lt x.isLt,
    ← Nat.shiftLeft_add_eq_or_of_lt y.isLt, ← Nat.shiftLeft_add_eq_or_of_lt n.isLt]
  simp only [Nat.shiftLeft_eq]; omega

theorem encXKK_toNat (c : BitVec 4) (x : Reg) (kk : Byte) :
    (encXKK c x kk).toNat = c.toNat * 4096 + x.val * 256 + kk.toNat := append_4_4_8_toNat c (nibble x) kk

theorem encSYS_toNat (kk : Byte) : (encSYS kk).toNat = kk.toNat :=
  (append_4_4_8_toNat 0x0#4 0x0#4 kk).trans (by simp)

theorem encXF_toNat (x : Reg) (kk : Byte) : (encXF x kk).toNat = 15 * 4096 + x.val * 256 + kk.toNat :=
  append_4_4_8_toNat 0xF#4 (nibble x) kk

theorem encXY_toNat (c : BitVec 4) (x y : Reg) (n : BitVec 4) :
    (encXY c x y n).toNat = c.toNat * 4096 + x.val * 256 + y.val * 16 + n.toNat :=
  append_4_4_4_4_toNat c (nibble x) (nibble y) n

theorem encXYN_toNat (x y : Reg) (n : Height) :
    (encXYN x y n).toNat = 13 * 4096 + x.val * 256 + y.val * 16 + n.val :=
  append_4_4_4_4_toNat 0xD#4 (nibble x) (nibble y) (nibble n)

/-! ## The decoder by class (R77) -/

section Classes
variable {w : Word}

theorem decode_class0 (h : w.toNat / 4096 = 0) : decode w = decodeSystem w := by simp [decode, h]
theorem decode_class1 (h : w.toNat / 4096 = 1) : decode w = .ok (.jp (fieldNNN w)) := by simp [decode, h]
theorem decode_class2 (h : w.toNat / 4096 = 2) : decode w = .ok (.call (fieldNNN w)) := by simp [decode, h]
theorem decode_class3 (h : w.toNat / 4096 = 3) : decode w = .ok (.seImm (fieldX w) (fieldKK w)) := by simp [decode, h]
theorem decode_class4 (h : w.toNat / 4096 = 4) : decode w = .ok (.sneImm (fieldX w) (fieldKK w)) := by simp [decode, h]
theorem decode_class5 (h : w.toNat / 4096 = 5) : decode w = .ok (.seReg (fieldX w) (fieldY w)) := by simp [decode, h]
theorem decode_class6 (h : w.toNat / 4096 = 6) : decode w = .ok (.ldImm (fieldX w) (fieldKK w)) := by simp [decode, h]
theorem decode_class7 (h : w.toNat / 4096 = 7) : decode w = .ok (.addImm (fieldX w) (fieldKK w)) := by simp [decode, h]
theorem decode_class8 (h : w.toNat / 4096 = 8) : decode w = decodeArithmetic w := by simp [decode, h]
theorem decode_class9 (h : w.toNat / 4096 = 9) : decode w = .ok (.sneReg (fieldX w) (fieldY w)) := by simp [decode, h]
theorem decode_class10 (h : w.toNat / 4096 = 10) : decode w = .ok (.ldI (fieldNNN w)) := by simp [decode, h]
theorem decode_class11 (h : w.toNat / 4096 = 11) : decode w = .error (.illegalWord w) := by simp [decode, h]
theorem decode_class12 (h : w.toNat / 4096 = 12) : decode w = .ok (.rnd (fieldX w) (fieldKK w)) := by simp [decode, h]
theorem decode_class13 (h : w.toNat / 4096 = 13) : decode w = .ok (.drw (fieldX w) (fieldY w) (fieldN w)) := by simp [decode, h]
theorem decode_class14 (h : w.toNat / 4096 = 14) : decode w = .error (.illegalWord w) := by simp [decode, h]
theorem decode_class15 (h : w.toNat / 4096 = 15) : decode w = decodeMemory w := by simp [decode, h]

end Classes

/-- The decoder rejects a word only as illegal, and names the word itself (R80). -/
theorem decode_error {w : Word} {e : DecodeReject} (h : decode w = .error e) : e = .illegalWord w := by
  revert h
  unfold decode decodeSystem decodeArithmetic decodeMemory
  repeat' split
  all_goals simp only [reduceCtorEq, false_imp_iff, Except.error.injEq]
  all_goals exact fun h => h.symm

/-- Clearing the bits of a mask subtracts them. -/
theorem and_not_toNat (w m : Word) : (w &&& ~~~m).toNat = w.toNat - (w &&& m).toNat := by
  have split : w = (w &&& ~~~m) + (w &&& m) := by
    rw [BitVec.add_eq_or_of_and_eq_zero]
    · ext j hj; cases h : w[j] <;> cases h' : m[j] <;> simp [h, h']
    · ext j hj; cases h : w[j] <;> cases h' : m[j] <;> simp [h, h']
  have h := congrArg BitVec.toNat split
  have h1 : (w &&& ~~~m).toNat ≤ w.toNat := by rw [BitVec.toNat_and]; exact Nat.and_le_left
  have h2 : (w &&& m).toNat ≤ w.toNat := by rw [BitVec.toNat_and]; exact Nat.and_le_left
  have hw := w.isLt
  rw [BitVec.toNat_add] at h
  omega

end Sys2Proof
end

