-- ==== Sys2Proof/Laws/Memory.lean ====
section
/-! SUPPORT. The laws of memory: read after write, read after storing a run of bytes, the image of a load, and that
every memory operation keeps the canonical form. -/

namespace Sys2Proof.Machine

/-! ## Reading after erasing and inserting -/

theorem Memory.read_erase (m : Memory) (a k : Nat) :
    (m.erase a).read k = if k = a then unlistedByte else m.read k := by
  induction m with
  | nil => simp [Memory.erase, Memory.read]
  | cons c rest ih =>
    obtain ⟨j, b⟩ := c
    simp only [Memory.erase] at ih
    by_cases hj : j = a <;> by_cases hk : k = a <;> simp_all [Memory.erase, Memory.read]
    intro h; exact absurd h.symm hk

theorem Memory.read_insert_other (m : Memory) (a k : Nat) (b : Byte) (h : k ≠ a) :
    (m.insert a b).read k = m.read k := by
  induction m with
  | nil => simp [Memory.insert, Memory.read, h.symm]
  | cons c rest ih =>
    obtain ⟨j, d⟩ := c
    by_cases hj : a < j <;> simp [Memory.insert, Memory.read, hj, h.symm, ih]

theorem Memory.read_insert_same (m : Memory) (a : Nat) (b : Byte) (h : ∀ c ∈ m, c.1 ≠ a) :
    (m.insert a b).read a = b := by
  induction m with
  | nil => simp [Memory.insert, Memory.read]
  | cons c rest ih =>
    obtain ⟨j, d⟩ := c
    have hj : j ≠ a := h (j, d) (by simp)
    by_cases hlt : a < j <;> simp [Memory.insert, Memory.read, hlt, hj]
    exact ih fun c hc => h c (by simp [hc])

theorem Memory.erase_ne (m : Memory) (a : Nat) : ∀ c ∈ m.erase a, c.1 ≠ a := by
  simp [Memory.erase]

/-- A read after a write (20_memory.md R54): the written byte at its address, every other address as before. -/
@[simp] theorem Memory.read_write (m : Memory) (a k : Nat) (b : Byte) :
    (m.write a b).read k = if k = a then b else m.read k := by
  unfold Memory.write
  split
  · next hb => simp [Memory.read_erase, hb]
  · by_cases hk : k = a
    · subst hk; simp [Memory.read_insert_same _ _ _ (m.erase_ne k)]
    · simp [hk, Memory.read_insert_other _ _ _ _ hk, Memory.read_erase]

/-- A read after a run of bytes was stored: the stored byte inside the run, every other address as before. -/
theorem Memory.read_storeBytes (bs : List Byte) : ∀ (m : Memory) (a k : Nat),
    (m.storeBytes a bs).read k =
      if h : a ≤ k ∧ k < a + bs.length then bs[k - a]'(by omega) else m.read k := by
  induction bs with
  | nil => intro m a k; simp only [Memory.storeBytes, List.length_nil]; rw [dif_neg (by omega)]
  | cons b bs ih =>
    intro m a k
    simp only [Memory.storeBytes, ih, Memory.read_write, List.length_cons]
    by_cases hk : k = a
    · subst hk; simp
    · by_cases h : a ≤ k ∧ k < a + (bs.length + 1)
      · rw [dif_pos (by omega), dif_pos h]
        obtain ⟨d, rfl⟩ : ∃ d, k = a + 1 + d := ⟨k - (a + 1), by omega⟩
        have h1 : a + 1 + d - a = d + 1 := by omega
        have h2 : a + 1 + d - (a + 1) = d := by omega
        simp only [h1, h2, List.getElem_cons_succ]
      · rw [dif_neg (by omega), dif_neg h, if_neg hk]

/-- Outside the stored run every address reads as before. -/
theorem Memory.read_storeBytes_outside (m : Memory) (a k : Nat) (bs : List Byte)
    (h : ¬ (a ≤ k ∧ k < a + bs.length)) : (m.storeBytes a bs).read k = m.read k := by
  rw [Memory.read_storeBytes, dif_neg h]

/-- What memory reads after a load (70_reset_and_hazards.md R191). -/
theorem Memory.read_ofImage (img : List Byte) : ∀ a k : Nat,
    (Memory.ofImage a img).read k = if h : a ≤ k ∧ k < a + img.length then img[k - a]'(by omega) else unlistedByte := by
  induction img with
  | nil => intro a k; simp only [Memory.ofImage, Memory.read, List.length_nil]; rw [dif_neg (by omega)]
  | cons b bs ih =>
    intro a k
    have tail : (Memory.ofImage (a + 1) bs).read k =
        if h : a ≤ k ∧ k < a + (bs.length + 1) then (if k = a then unlistedByte else (b :: bs)[k - a]'(by simp; omega))
        else unlistedByte := by
      rw [ih]
      by_cases hk : k = a
      · subst hk; simp
      · by_cases h : a ≤ k ∧ k < a + (bs.length + 1)
        · rw [dif_pos (by omega), dif_pos h, if_neg hk]
          obtain ⟨d, rfl⟩ : ∃ d, k = a + 1 + d := ⟨k - (a + 1), by omega⟩
          have h1 : a + 1 + d - a = d + 1 := by omega
          have h2 : a + 1 + d - (a + 1) = d := by omega
          simp only [h1, h2, List.getElem_cons_succ]
        · rw [dif_neg (by omega), dif_neg h]
    simp only [List.length_cons]
    by_cases hk : k = a
    · subst hk
      by_cases hb : b = unlistedByte <;> simp [Memory.ofImage, hb, Memory.read]
      rw [tail]; simp
    · have : (Memory.ofImage a (b :: bs)).read k = (Memory.ofImage (a + 1) bs).read k := by
        by_cases hb : b = unlistedByte <;> simp [Memory.ofImage, hb, Memory.read, Ne.symm hk]
      rw [this, tail]
      simp only [if_neg hk]

/-! ## The canonical form -/

theorem Memory.wfFrom_mono {m : Memory} {lo lo' : Nat} (hlo : lo' ≤ lo) (h : Memory.wfFrom lo m = true) :
    Memory.wfFrom lo' m = true := by
  cases m with
  | nil => rfl
  | cons c rest =>
    obtain ⟨k, b⟩ := c
    simp only [Memory.wfFrom, Bool.and_eq_true, decide_eq_true_eq] at h ⊢
    exact ⟨⟨⟨by omega, h.1.1.2⟩, h.1.2⟩, h.2⟩

theorem Memory.wfFrom_erase (m : Memory) (a : Nat) : ∀ lo, Memory.wfFrom lo m = true →
    Memory.wfFrom lo (m.erase a) = true := by
  induction m with
  | nil => intro lo _; rfl
  | cons c rest ih =>
    intro lo h
    obtain ⟨k, b⟩ := c
    simp only [Memory.wfFrom, Bool.and_eq_true, decide_eq_true_eq] at h
    have ih := ih (k + 1) h.2
    by_cases hk : k = a
    · simp only [Memory.erase, hk, List.filter, bne_self_eq_false] at ih ⊢
      exact Memory.wfFrom_mono (by omega) ih
    · have : Memory.erase ((k, b) :: rest) a = (k, b) :: Memory.erase rest a := by
        simp [Memory.erase, hk]
      simp only [this, Memory.wfFrom, Bool.and_eq_true, decide_eq_true_eq]
      exact ⟨h.1, ih⟩

theorem Memory.wfFrom_insert (m : Memory) (a : Nat) (b : Byte) (ha : a < Config.memSize) (hb : b ≠ unlistedByte) :
    ∀ lo, lo ≤ a → (∀ c ∈ m, c.1 ≠ a) → Memory.wfFrom lo m = true → Memory.wfFrom lo (m.insert a b) = true := by
  induction m with
  | nil => intro lo hlo _ _; simp [Memory.insert, Memory.wfFrom, hlo, ha, hb]
  | cons c rest ih =>
    intro lo hlo hne h
    obtain ⟨k, d⟩ := c
    have hk : k ≠ a := hne (k, d) (by simp)
    simp only [Memory.wfFrom, Bool.and_eq_true, decide_eq_true_eq] at h
    by_cases hlt : a < k
    · simp only [Memory.insert, hlt, if_true, Memory.wfFrom, Bool.and_eq_true, decide_eq_true_eq]
      exact ⟨⟨⟨hlo, ha⟩, by simpa using hb⟩, ⟨⟨by omega, h.1.1.2⟩, h.1.2⟩, h.2⟩
    · simp only [Memory.insert, hlt, if_false, Memory.wfFrom, Bool.and_eq_true, decide_eq_true_eq]
      exact ⟨h.1, ih (k + 1) (by omega) (fun c hc => hne c (by simp [hc])) h.2⟩

/-- A write inside memory keeps the canonical form. -/
theorem Memory.write_wf {m : Memory} {a : Nat} (b : Byte) (ha : a < Config.memSize) (h : m.wf = true) :
    (m.write a b).wf = true := by
  have he := Memory.wfFrom_erase m a 0 h
  unfold Memory.write Memory.wf
  split
  · exact he
  · next hb => exact Memory.wfFrom_insert _ a b ha hb 0 (Nat.zero_le a) (m.erase_ne a) he

/-- Storing a run of bytes that lies in memory keeps the canonical form. -/
theorem Memory.storeBytes_wf (bs : List Byte) : ∀ {m : Memory} {a : Nat}, (bs ≠ [] → a + bs.length ≤ Config.memSize) →
    m.wf = true → (m.storeBytes a bs).wf = true := by
  induction bs with
  | nil => intro m a _ h; exact h
  | cons b bs ih =>
    intro m a ha h
    have ha := ha (by simp)
    simp only [List.length_cons] at ha
    exact ih (fun _ => by omega) (Memory.write_wf b (by omega) h)

theorem Memory.ofImage_wfFrom (img : List Byte) : ∀ a, (img ≠ [] → a + img.length ≤ Config.memSize) →
    Memory.wfFrom a (Memory.ofImage a img) = true := by
  induction img with
  | nil => intro a _; rfl
  | cons b bs ih =>
    intro a h
    have h := h (by simp)
    simp only [List.length_cons] at h
    have ih := ih (a + 1) (fun _ => by omega)
    by_cases hb : b = unlistedByte
    · simp only [Memory.ofImage, hb, if_true]; exact Memory.wfFrom_mono (by omega) ih
    · simp only [Memory.ofImage, hb, if_false, Memory.wfFrom, Bool.and_eq_true, decide_eq_true_eq]
      exact ⟨⟨⟨Nat.le_refl a, by omega⟩, by simpa using hb⟩, ih⟩

/-- Memory after the load of an image that fits is in canonical form. -/
theorem Memory.ofImage_wf {img : List Byte} {a : Nat} (h : img ≠ [] → a + img.length ≤ Config.memSize) :
    (Memory.ofImage a img).wf = true :=
  Memory.wfFrom_mono (Nat.zero_le a) (Memory.ofImage_wfFrom img a h)

/-- A canonical memory lists no address below its lower bound. -/
theorem Memory.read_below {m : Memory} {lo k : Nat} (h : Memory.wfFrom lo m = true) (hk : k < lo) :
    m.read k = unlistedByte := by
  induction m generalizing lo with
  | nil => rfl
  | cons c rest ih =>
    obtain ⟨j, b⟩ := c
    simp only [Memory.wfFrom, Bool.and_eq_true, decide_eq_true_eq] at h
    have : j ≠ k := by omega
    simp only [Memory.read, this, if_false]
    exact ih h.2 (by omega)

theorem Memory.ext_from {m m' : Memory} : ∀ {lo : Nat}, Memory.wfFrom lo m = true → Memory.wfFrom lo m' = true →
    (∀ k, m.read k = m'.read k) → m = m' := by
  induction m generalizing m' with
  | nil =>
    intro lo _ h' hr
    cases m' with
    | nil => rfl
    | cons c rest =>
      obtain ⟨j, b⟩ := c
      simp only [Memory.wfFrom, Bool.and_eq_true] at h'
      have := hr j
      simp [Memory.read] at this
      simp [← this] at h'
  | cons c rest ih =>
    intro lo h h' hr
    obtain ⟨j, b⟩ := c
    simp only [Memory.wfFrom, Bool.and_eq_true, decide_eq_true_eq] at h
    cases m' with
    | nil =>
      have := hr j
      simp [Memory.read] at this
      simp [this] at h
    | cons c' rest' =>
      obtain ⟨j', b'⟩ := c'
      simp only [Memory.wfFrom, Bool.and_eq_true, decide_eq_true_eq] at h'
      have hj : j = j' := by
        rcases Nat.lt_trichotomy j j' with hlt | heq | hgt
        · have h1 := hr j
          simp only [Memory.read, if_true, if_neg (Nat.ne_of_gt hlt)] at h1
          rw [Memory.read_below h'.2 (by omega)] at h1
          simp [h1] at h
        · exact heq
        · have h1 := hr j'
          simp only [Memory.read, if_true, if_neg (Nat.ne_of_gt hgt)] at h1
          rw [Memory.read_below h.2 (by omega)] at h1
          simp [← h1] at h'
      subst hj
      have hb : b = b' := by simpa [Memory.read] using hr j
      subst hb
      congr 1
      refine ih h.2 h'.2 fun k => ?_
      by_cases hk : j = k
      · subst hk; rw [Memory.read_below h.2 (by omega), Memory.read_below h'.2 (by omega)]
      · simpa [Memory.read, hk] using hr k

/-- Equal memories are equal data: two canonical memories that read alike are the same list. -/
theorem Memory.ext {m m' : Memory} (h : m.wf = true) (h' : m'.wf = true) (hr : ∀ k, m.read k = m'.read k) : m = m' :=
  Memory.ext_from h h' hr

end Sys2Proof.Machine
end

