-- ==== Sys2Proof/Laws/State.lean ====
section
/-! SUPPORT. One lemma per field per update of State, true by rfl, and the reads of registers and stack slots after a
write, so that no proof unfolds a record update. -/

namespace Sys2Proof.Machine

variable (s : State)

/-! ### setV -/

@[simp] theorem State.setV_v (x : Reg) (b : Byte) : (s.setV x b).v = s.v.set x.val b := rfl
@[simp] theorem State.setV_i (x : Reg) (b : Byte) : (s.setV x b).i = s.i := rfl
@[simp] theorem State.setV_pc (x : Reg) (b : Byte) : (s.setV x b).pc = s.pc := rfl
@[simp] theorem State.setV_sp (x : Reg) (b : Byte) : (s.setV x b).sp = s.sp := rfl
@[simp] theorem State.setV_stk (x : Reg) (b : Byte) : (s.setV x b).stk = s.stk := rfl
@[simp] theorem State.setV_dt (x : Reg) (b : Byte) : (s.setV x b).dt = s.dt := rfl
@[simp] theorem State.setV_st (x : Reg) (b : Byte) : (s.setV x b).st = s.st := rfl
@[simp] theorem State.setV_mem (x : Reg) (b : Byte) : (s.setV x b).mem = s.mem := rfl
@[simp] theorem State.setV_fb (x : Reg) (b : Byte) : (s.setV x b).fb = s.fb := rfl
@[simp] theorem State.setV_dp (x : Reg) (b : Byte) : (s.setV x b).dp = s.dp := rfl
@[simp] theorem State.setV_draws (x : Reg) (b : Byte) : (s.setV x b).draws = s.draws := rfl

/-! ### setI -/

@[simp] theorem State.setI_v (w : Word) : (s.setI w).v = s.v := rfl
@[simp] theorem State.setI_i (w : Word) : (s.setI w).i = w := rfl
@[simp] theorem State.setI_pc (w : Word) : (s.setI w).pc = s.pc := rfl
@[simp] theorem State.setI_sp (w : Word) : (s.setI w).sp = s.sp := rfl
@[simp] theorem State.setI_stk (w : Word) : (s.setI w).stk = s.stk := rfl
@[simp] theorem State.setI_dt (w : Word) : (s.setI w).dt = s.dt := rfl
@[simp] theorem State.setI_st (w : Word) : (s.setI w).st = s.st := rfl
@[simp] theorem State.setI_mem (w : Word) : (s.setI w).mem = s.mem := rfl
@[simp] theorem State.setI_fb (w : Word) : (s.setI w).fb = s.fb := rfl
@[simp] theorem State.setI_dp (w : Word) : (s.setI w).dp = s.dp := rfl
@[simp] theorem State.setI_draws (w : Word) : (s.setI w).draws = s.draws := rfl

/-! ### setPc -/

@[simp] theorem State.setPc_v (w : Word) : (s.setPc w).v = s.v := rfl
@[simp] theorem State.setPc_i (w : Word) : (s.setPc w).i = s.i := rfl
@[simp] theorem State.setPc_pc (w : Word) : (s.setPc w).pc = w := rfl
@[simp] theorem State.setPc_sp (w : Word) : (s.setPc w).sp = s.sp := rfl
@[simp] theorem State.setPc_stk (w : Word) : (s.setPc w).stk = s.stk := rfl
@[simp] theorem State.setPc_dt (w : Word) : (s.setPc w).dt = s.dt := rfl
@[simp] theorem State.setPc_st (w : Word) : (s.setPc w).st = s.st := rfl
@[simp] theorem State.setPc_mem (w : Word) : (s.setPc w).mem = s.mem := rfl
@[simp] theorem State.setPc_fb (w : Word) : (s.setPc w).fb = s.fb := rfl
@[simp] theorem State.setPc_dp (w : Word) : (s.setPc w).dp = s.dp := rfl
@[simp] theorem State.setPc_draws (w : Word) : (s.setPc w).draws = s.draws := rfl

/-! ### setSp -/

@[simp] theorem State.setSp_v (b : Byte) : (s.setSp b).v = s.v := rfl
@[simp] theorem State.setSp_i (b : Byte) : (s.setSp b).i = s.i := rfl
@[simp] theorem State.setSp_pc (b : Byte) : (s.setSp b).pc = s.pc := rfl
@[simp] theorem State.setSp_sp (b : Byte) : (s.setSp b).sp = b := rfl
@[simp] theorem State.setSp_stk (b : Byte) : (s.setSp b).stk = s.stk := rfl
@[simp] theorem State.setSp_dt (b : Byte) : (s.setSp b).dt = s.dt := rfl
@[simp] theorem State.setSp_st (b : Byte) : (s.setSp b).st = s.st := rfl
@[simp] theorem State.setSp_mem (b : Byte) : (s.setSp b).mem = s.mem := rfl
@[simp] theorem State.setSp_fb (b : Byte) : (s.setSp b).fb = s.fb := rfl
@[simp] theorem State.setSp_dp (b : Byte) : (s.setSp b).dp = s.dp := rfl
@[simp] theorem State.setSp_draws (b : Byte) : (s.setSp b).draws = s.draws := rfl

/-! ### setStk -/

@[simp] theorem State.setStk_v (k : Fin 16) (w : Word) : (s.setStk k w).v = s.v := rfl
@[simp] theorem State.setStk_i (k : Fin 16) (w : Word) : (s.setStk k w).i = s.i := rfl
@[simp] theorem State.setStk_pc (k : Fin 16) (w : Word) : (s.setStk k w).pc = s.pc := rfl
@[simp] theorem State.setStk_sp (k : Fin 16) (w : Word) : (s.setStk k w).sp = s.sp := rfl
@[simp] theorem State.setStk_stk (k : Fin 16) (w : Word) : (s.setStk k w).stk = s.stk.set k.val w := rfl
@[simp] theorem State.setStk_dt (k : Fin 16) (w : Word) : (s.setStk k w).dt = s.dt := rfl
@[simp] theorem State.setStk_st (k : Fin 16) (w : Word) : (s.setStk k w).st = s.st := rfl
@[simp] theorem State.setStk_mem (k : Fin 16) (w : Word) : (s.setStk k w).mem = s.mem := rfl
@[simp] theorem State.setStk_fb (k : Fin 16) (w : Word) : (s.setStk k w).fb = s.fb := rfl
@[simp] theorem State.setStk_dp (k : Fin 16) (w : Word) : (s.setStk k w).dp = s.dp := rfl
@[simp] theorem State.setStk_draws (k : Fin 16) (w : Word) : (s.setStk k w).draws = s.draws := rfl

/-! ### setTimers -/

@[simp] theorem State.setTimers_v (d t : Byte) : (s.setTimers d t).v = s.v := rfl
@[simp] theorem State.setTimers_i (d t : Byte) : (s.setTimers d t).i = s.i := rfl
@[simp] theorem State.setTimers_pc (d t : Byte) : (s.setTimers d t).pc = s.pc := rfl
@[simp] theorem State.setTimers_sp (d t : Byte) : (s.setTimers d t).sp = s.sp := rfl
@[simp] theorem State.setTimers_stk (d t : Byte) : (s.setTimers d t).stk = s.stk := rfl
@[simp] theorem State.setTimers_dt (d t : Byte) : (s.setTimers d t).dt = d := rfl
@[simp] theorem State.setTimers_st (d t : Byte) : (s.setTimers d t).st = t := rfl
@[simp] theorem State.setTimers_mem (d t : Byte) : (s.setTimers d t).mem = s.mem := rfl
@[simp] theorem State.setTimers_fb (d t : Byte) : (s.setTimers d t).fb = s.fb := rfl
@[simp] theorem State.setTimers_dp (d t : Byte) : (s.setTimers d t).dp = s.dp := rfl
@[simp] theorem State.setTimers_draws (d t : Byte) : (s.setTimers d t).draws = s.draws := rfl

/-! ### setMem -/

@[simp] theorem State.setMem_v (m : Memory) : (s.setMem m).v = s.v := rfl
@[simp] theorem State.setMem_i (m : Memory) : (s.setMem m).i = s.i := rfl
@[simp] theorem State.setMem_pc (m : Memory) : (s.setMem m).pc = s.pc := rfl
@[simp] theorem State.setMem_sp (m : Memory) : (s.setMem m).sp = s.sp := rfl
@[simp] theorem State.setMem_stk (m : Memory) : (s.setMem m).stk = s.stk := rfl
@[simp] theorem State.setMem_dt (m : Memory) : (s.setMem m).dt = s.dt := rfl
@[simp] theorem State.setMem_st (m : Memory) : (s.setMem m).st = s.st := rfl
@[simp] theorem State.setMem_mem (m : Memory) : (s.setMem m).mem = m := rfl
@[simp] theorem State.setMem_fb (m : Memory) : (s.setMem m).fb = s.fb := rfl
@[simp] theorem State.setMem_dp (m : Memory) : (s.setMem m).dp = s.dp := rfl
@[simp] theorem State.setMem_draws (m : Memory) : (s.setMem m).draws = s.draws := rfl

/-! ### setFb -/

@[simp] theorem State.setFb_v (fb : Surface) : (s.setFb fb).v = s.v := rfl
@[simp] theorem State.setFb_i (fb : Surface) : (s.setFb fb).i = s.i := rfl
@[simp] theorem State.setFb_pc (fb : Surface) : (s.setFb fb).pc = s.pc := rfl
@[simp] theorem State.setFb_sp (fb : Surface) : (s.setFb fb).sp = s.sp := rfl
@[simp] theorem State.setFb_stk (fb : Surface) : (s.setFb fb).stk = s.stk := rfl
@[simp] theorem State.setFb_dt (fb : Surface) : (s.setFb fb).dt = s.dt := rfl
@[simp] theorem State.setFb_st (fb : Surface) : (s.setFb fb).st = s.st := rfl
@[simp] theorem State.setFb_mem (fb : Surface) : (s.setFb fb).mem = s.mem := rfl
@[simp] theorem State.setFb_fb (fb : Surface) : (s.setFb fb).fb = fb := rfl
@[simp] theorem State.setFb_dp (fb : Surface) : (s.setFb fb).dp = s.dp := rfl
@[simp] theorem State.setFb_draws (fb : Surface) : (s.setFb fb).draws = s.draws := rfl

/-! ### setDp -/

@[simp] theorem State.setDp_v (b : Bool) : (s.setDp b).v = s.v := rfl
@[simp] theorem State.setDp_i (b : Bool) : (s.setDp b).i = s.i := rfl
@[simp] theorem State.setDp_pc (b : Bool) : (s.setDp b).pc = s.pc := rfl
@[simp] theorem State.setDp_sp (b : Bool) : (s.setDp b).sp = s.sp := rfl
@[simp] theorem State.setDp_stk (b : Bool) : (s.setDp b).stk = s.stk := rfl
@[simp] theorem State.setDp_dt (b : Bool) : (s.setDp b).dt = s.dt := rfl
@[simp] theorem State.setDp_st (b : Bool) : (s.setDp b).st = s.st := rfl
@[simp] theorem State.setDp_mem (b : Bool) : (s.setDp b).mem = s.mem := rfl
@[simp] theorem State.setDp_fb (b : Bool) : (s.setDp b).fb = s.fb := rfl
@[simp] theorem State.setDp_dp (b : Bool) : (s.setDp b).dp = b := rfl
@[simp] theorem State.setDp_draws (b : Bool) : (s.setDp b).draws = s.draws := rfl

/-! ### countDraw -/

@[simp] theorem State.countDraw_v : (s.countDraw).v = s.v := rfl
@[simp] theorem State.countDraw_i : (s.countDraw).i = s.i := rfl
@[simp] theorem State.countDraw_pc : (s.countDraw).pc = s.pc := rfl
@[simp] theorem State.countDraw_sp : (s.countDraw).sp = s.sp := rfl
@[simp] theorem State.countDraw_stk : (s.countDraw).stk = s.stk := rfl
@[simp] theorem State.countDraw_dt : (s.countDraw).dt = s.dt := rfl
@[simp] theorem State.countDraw_st : (s.countDraw).st = s.st := rfl
@[simp] theorem State.countDraw_mem : (s.countDraw).mem = s.mem := rfl
@[simp] theorem State.countDraw_fb : (s.countDraw).fb = s.fb := rfl
@[simp] theorem State.countDraw_dp : (s.countDraw).dp = s.dp := rfl
@[simp] theorem State.countDraw_draws : (s.countDraw).draws = s.draws + 1 := rfl

/-! ### advance -/

@[simp] theorem State.advance_v : (s.advance).v = s.v := rfl
@[simp] theorem State.advance_i : (s.advance).i = s.i := rfl
@[simp] theorem State.advance_pc : (s.advance).pc = s.pc + 2 := rfl
@[simp] theorem State.advance_sp : (s.advance).sp = s.sp := rfl
@[simp] theorem State.advance_stk : (s.advance).stk = s.stk := rfl
@[simp] theorem State.advance_dt : (s.advance).dt = s.dt := rfl
@[simp] theorem State.advance_st : (s.advance).st = s.st := rfl
@[simp] theorem State.advance_mem : (s.advance).mem = s.mem := rfl
@[simp] theorem State.advance_fb : (s.advance).fb = s.fb := rfl
@[simp] theorem State.advance_dp : (s.advance).dp = s.dp := rfl
@[simp] theorem State.advance_draws : (s.advance).draws = s.draws := rfl

/-! ### skipIf -/

@[simp] theorem State.skipIf_v (c : Bool) : (s.skipIf c).v = s.v := rfl
@[simp] theorem State.skipIf_i (c : Bool) : (s.skipIf c).i = s.i := rfl
@[simp] theorem State.skipIf_pc (c : Bool) : (s.skipIf c).pc = if c then s.pc + 4 else s.pc + 2 := rfl
@[simp] theorem State.skipIf_sp (c : Bool) : (s.skipIf c).sp = s.sp := rfl
@[simp] theorem State.skipIf_stk (c : Bool) : (s.skipIf c).stk = s.stk := rfl
@[simp] theorem State.skipIf_dt (c : Bool) : (s.skipIf c).dt = s.dt := rfl
@[simp] theorem State.skipIf_st (c : Bool) : (s.skipIf c).st = s.st := rfl
@[simp] theorem State.skipIf_mem (c : Bool) : (s.skipIf c).mem = s.mem := rfl
@[simp] theorem State.skipIf_fb (c : Bool) : (s.skipIf c).fb = s.fb := rfl
@[simp] theorem State.skipIf_dp (c : Bool) : (s.skipIf c).dp = s.dp := rfl
@[simp] theorem State.skipIf_draws (c : Bool) : (s.skipIf c).draws = s.draws := rfl

/-! ### setFlag -/

@[simp] theorem State.setFlag_v (f : Bool) : (s.setFlag f).v = s.v.set 15 (flagByte f) := rfl
@[simp] theorem State.setFlag_i (f : Bool) : (s.setFlag f).i = s.i := rfl
@[simp] theorem State.setFlag_pc (f : Bool) : (s.setFlag f).pc = s.pc := rfl
@[simp] theorem State.setFlag_sp (f : Bool) : (s.setFlag f).sp = s.sp := rfl
@[simp] theorem State.setFlag_stk (f : Bool) : (s.setFlag f).stk = s.stk := rfl
@[simp] theorem State.setFlag_dt (f : Bool) : (s.setFlag f).dt = s.dt := rfl
@[simp] theorem State.setFlag_st (f : Bool) : (s.setFlag f).st = s.st := rfl
@[simp] theorem State.setFlag_mem (f : Bool) : (s.setFlag f).mem = s.mem := rfl
@[simp] theorem State.setFlag_fb (f : Bool) : (s.setFlag f).fb = s.fb := rfl
@[simp] theorem State.setFlag_dp (f : Bool) : (s.setFlag f).dp = s.dp := rfl
@[simp] theorem State.setFlag_draws (f : Bool) : (s.setFlag f).draws = s.draws := rfl

/-! ### writeBytes -/

@[simp] theorem State.writeBytes_v (a : Nat) (bs : List Byte) : (s.writeBytes a bs).v = s.v := rfl
@[simp] theorem State.writeBytes_i (a : Nat) (bs : List Byte) : (s.writeBytes a bs).i = s.i := rfl
@[simp] theorem State.writeBytes_pc (a : Nat) (bs : List Byte) : (s.writeBytes a bs).pc = s.pc := rfl
@[simp] theorem State.writeBytes_sp (a : Nat) (bs : List Byte) : (s.writeBytes a bs).sp = s.sp := rfl
@[simp] theorem State.writeBytes_stk (a : Nat) (bs : List Byte) : (s.writeBytes a bs).stk = s.stk := rfl
@[simp] theorem State.writeBytes_dt (a : Nat) (bs : List Byte) : (s.writeBytes a bs).dt = s.dt := rfl
@[simp] theorem State.writeBytes_st (a : Nat) (bs : List Byte) : (s.writeBytes a bs).st = s.st := rfl
@[simp] theorem State.writeBytes_mem (a : Nat) (bs : List Byte) : (s.writeBytes a bs).mem = s.mem.storeBytes a bs := rfl
@[simp] theorem State.writeBytes_fb (a : Nat) (bs : List Byte) : (s.writeBytes a bs).fb = s.fb := rfl
@[simp] theorem State.writeBytes_dp (a : Nat) (bs : List Byte) : (s.writeBytes a bs).dp = s.dp := rfl
@[simp] theorem State.writeBytes_draws (a : Nat) (bs : List Byte) : (s.writeBytes a bs).draws = s.draws := rfl

/-! ### pushPc -/

@[simp] theorem State.pushPc_v (h : s.sp.toNat < 16) : (s.pushPc h).v = s.v := rfl
@[simp] theorem State.pushPc_i (h : s.sp.toNat < 16) : (s.pushPc h).i = s.i := rfl
@[simp] theorem State.pushPc_pc (h : s.sp.toNat < 16) : (s.pushPc h).pc = s.pc := rfl
@[simp] theorem State.pushPc_sp (h : s.sp.toNat < 16) : (s.pushPc h).sp = s.sp + 1 := rfl
@[simp] theorem State.pushPc_stk (h : s.sp.toNat < 16) : (s.pushPc h).stk = s.stk.set s.sp.toNat s.pc := rfl
@[simp] theorem State.pushPc_dt (h : s.sp.toNat < 16) : (s.pushPc h).dt = s.dt := rfl
@[simp] theorem State.pushPc_st (h : s.sp.toNat < 16) : (s.pushPc h).st = s.st := rfl
@[simp] theorem State.pushPc_mem (h : s.sp.toNat < 16) : (s.pushPc h).mem = s.mem := rfl
@[simp] theorem State.pushPc_fb (h : s.sp.toNat < 16) : (s.pushPc h).fb = s.fb := rfl
@[simp] theorem State.pushPc_dp (h : s.sp.toNat < 16) : (s.pushPc h).dp = s.dp := rfl
@[simp] theorem State.pushPc_draws (h : s.sp.toNat < 16) : (s.pushPc h).draws = s.draws := rfl

/-! ### Reads after writes -/

/-- A register read after a register write. -/
@[simp] theorem State.readV_setV (x r : Reg) (b : Byte) :
    (s.setV x b).readV r = if r = x then b else s.readV r := by
  simp only [State.readV, State.setV_v, Vector.getElem_set, Fin.ext_iff, eq_comm (a := x.val)]

/-- A register read after a flag write. -/
@[simp] theorem State.readV_setFlag (f : Bool) (r : Reg) :
    (s.setFlag f).readV r = if r = Reg.vf then flagByte f else s.readV r :=
  State.readV_setV s Reg.vf r (flagByte f)

/-- A stack slot read after a stack write. -/
@[simp] theorem State.readStk_setStk (k j : Fin 16) (w : Word) :
    (s.setStk k w).readStk j = if j = k then w else s.readStk j := by
  simp only [State.readStk, State.setStk_stk, Vector.getElem_set, Fin.ext_iff, eq_comm (a := k.val)]

/-- A stack slot read after a push. -/
@[simp] theorem State.readStk_pushPc (h : s.sp.toNat < 16) (j : Fin 16) :
    (s.pushPc h).readStk j = if j.val = s.sp.toNat then s.pc else s.readStk j := by
  simp only [State.readStk, State.pushPc_stk, Vector.getElem_set, eq_comm (a := s.sp.toNat)]

/-! ### readV and the updates that leave it alone -/

@[simp] theorem State.readV_setI (w : Word) (r : Reg) : (s.setI w).readV r = s.readV r := rfl
@[simp] theorem State.readV_setPc (w : Word) (r : Reg) : (s.setPc w).readV r = s.readV r := rfl
@[simp] theorem State.readV_setSp (b : Byte) (r : Reg) : (s.setSp b).readV r = s.readV r := rfl
@[simp] theorem State.readV_setStk (j : Fin 16) (w : Word) (r : Reg) : (s.setStk j w).readV r = s.readV r := rfl
@[simp] theorem State.readV_setTimers (d t : Byte) (r : Reg) : (s.setTimers d t).readV r = s.readV r := rfl
@[simp] theorem State.readV_setMem (m : Memory) (r : Reg) : (s.setMem m).readV r = s.readV r := rfl
@[simp] theorem State.readV_setFb (fb : Surface) (r : Reg) : (s.setFb fb).readV r = s.readV r := rfl
@[simp] theorem State.readV_setDp (b : Bool) (r : Reg) : (s.setDp b).readV r = s.readV r := rfl
@[simp] theorem State.readV_countDraw (r : Reg) : (s.countDraw).readV r = s.readV r := rfl
@[simp] theorem State.readV_advance (r : Reg) : (s.advance).readV r = s.readV r := rfl
@[simp] theorem State.readV_skipIf (c : Bool) (r : Reg) : (s.skipIf c).readV r = s.readV r := rfl
@[simp] theorem State.readV_writeBytes (a : Nat) (bs : List Byte) (r : Reg) : (s.writeBytes a bs).readV r = s.readV r := rfl
@[simp] theorem State.readV_pushPc (h : s.sp.toNat < 16) (r : Reg) : (s.pushPc h).readV r = s.readV r := rfl

/-! ### readStk and the updates that leave it alone -/

@[simp] theorem State.readStk_setV (x : Reg) (b : Byte) (k : Fin 16) : (s.setV x b).readStk k = s.readStk k := rfl
@[simp] theorem State.readStk_setI (w : Word) (k : Fin 16) : (s.setI w).readStk k = s.readStk k := rfl
@[simp] theorem State.readStk_setPc (w : Word) (k : Fin 16) : (s.setPc w).readStk k = s.readStk k := rfl
@[simp] theorem State.readStk_setSp (b : Byte) (k : Fin 16) : (s.setSp b).readStk k = s.readStk k := rfl
@[simp] theorem State.readStk_setTimers (d t : Byte) (k : Fin 16) : (s.setTimers d t).readStk k = s.readStk k := rfl
@[simp] theorem State.readStk_setMem (m : Memory) (k : Fin 16) : (s.setMem m).readStk k = s.readStk k := rfl
@[simp] theorem State.readStk_setFb (fb : Surface) (k : Fin 16) : (s.setFb fb).readStk k = s.readStk k := rfl
@[simp] theorem State.readStk_setDp (b : Bool) (k : Fin 16) : (s.setDp b).readStk k = s.readStk k := rfl
@[simp] theorem State.readStk_countDraw (k : Fin 16) : (s.countDraw).readStk k = s.readStk k := rfl
@[simp] theorem State.readStk_advance (k : Fin 16) : (s.advance).readStk k = s.readStk k := rfl
@[simp] theorem State.readStk_skipIf (c : Bool) (k : Fin 16) : (s.skipIf c).readStk k = s.readStk k := rfl
@[simp] theorem State.readStk_setFlag (f : Bool) (k : Fin 16) : (s.setFlag f).readStk k = s.readStk k := rfl
@[simp] theorem State.readStk_writeBytes (a : Nat) (bs : List Byte) (k : Fin 16) : (s.writeBytes a bs).readStk k = s.readStk k := rfl

/-! ### readByte and the updates that leave it alone -/

@[simp] theorem State.readByte_setV (x : Reg) (b : Byte) (k : Nat) : (s.setV x b).readByte k = s.readByte k := rfl
@[simp] theorem State.readByte_setI (w : Word) (k : Nat) : (s.setI w).readByte k = s.readByte k := rfl
@[simp] theorem State.readByte_setPc (w : Word) (k : Nat) : (s.setPc w).readByte k = s.readByte k := rfl
@[simp] theorem State.readByte_setSp (b : Byte) (k : Nat) : (s.setSp b).readByte k = s.readByte k := rfl
@[simp] theorem State.readByte_setStk (j : Fin 16) (w : Word) (k : Nat) : (s.setStk j w).readByte k = s.readByte k := rfl
@[simp] theorem State.readByte_setTimers (d t : Byte) (k : Nat) : (s.setTimers d t).readByte k = s.readByte k := rfl
@[simp] theorem State.readByte_setFb (fb : Surface) (k : Nat) : (s.setFb fb).readByte k = s.readByte k := rfl
@[simp] theorem State.readByte_setDp (b : Bool) (k : Nat) : (s.setDp b).readByte k = s.readByte k := rfl
@[simp] theorem State.readByte_countDraw (k : Nat) : (s.countDraw).readByte k = s.readByte k := rfl
@[simp] theorem State.readByte_advance (k : Nat) : (s.advance).readByte k = s.readByte k := rfl
@[simp] theorem State.readByte_skipIf (c : Bool) (k : Nat) : (s.skipIf c).readByte k = s.readByte k := rfl
@[simp] theorem State.readByte_setFlag (f : Bool) (k : Nat) : (s.setFlag f).readByte k = s.readByte k := rfl
@[simp] theorem State.readByte_pushPc (h : s.sp.toNat < 16) (k : Nat) : (s.pushPc h).readByte k = s.readByte k := rfl

/-! ### base and the updates that leave it alone -/

@[simp] theorem State.base_setV (x : Reg) (b : Byte) : (s.setV x b).base = s.base := rfl
@[simp] theorem State.base_setPc (w : Word) : (s.setPc w).base = s.base := rfl
@[simp] theorem State.base_setSp (b : Byte) : (s.setSp b).base = s.base := rfl
@[simp] theorem State.base_setStk (j : Fin 16) (w : Word) : (s.setStk j w).base = s.base := rfl
@[simp] theorem State.base_setTimers (d t : Byte) : (s.setTimers d t).base = s.base := rfl
@[simp] theorem State.base_setMem (m : Memory) : (s.setMem m).base = s.base := rfl
@[simp] theorem State.base_setFb (fb : Surface) : (s.setFb fb).base = s.base := rfl
@[simp] theorem State.base_setDp (b : Bool) : (s.setDp b).base = s.base := rfl
@[simp] theorem State.base_countDraw : (s.countDraw).base = s.base := rfl
@[simp] theorem State.base_advance : (s.advance).base = s.base := rfl
@[simp] theorem State.base_skipIf (c : Bool) : (s.skipIf c).base = s.base := rfl
@[simp] theorem State.base_setFlag (f : Bool) : (s.setFlag f).base = s.base := rfl
@[simp] theorem State.base_writeBytes (a : Nat) (bs : List Byte) : (s.writeBytes a bs).base = s.base := rfl
@[simp] theorem State.base_pushPc (h : s.sp.toNat < 16) : (s.pushPc h).base = s.base := rfl

/-! ### The state after a load (70_reset_and_hazards.md R191) -/

@[simp] theorem State.loaded_v (img : List Byte) : (s.loaded img).v = Vector.replicate 16 0 := rfl
@[simp] theorem State.loaded_i (img : List Byte) : (s.loaded img).i = 0 := rfl
@[simp] theorem State.loaded_pc (img : List Byte) : (s.loaded img).pc = 0x200 := rfl
@[simp] theorem State.loaded_sp (img : List Byte) : (s.loaded img).sp = 0 := rfl
@[simp] theorem State.loaded_stk (img : List Byte) : (s.loaded img).stk = Vector.replicate 16 0 := rfl
@[simp] theorem State.loaded_dt (img : List Byte) : (s.loaded img).dt = 0 := rfl
@[simp] theorem State.loaded_st (img : List Byte) : (s.loaded img).st = 0 := rfl
@[simp] theorem State.loaded_mem (img : List Byte) : (s.loaded img).mem = Memory.ofImage 0x200 img := rfl
@[simp] theorem State.loaded_fb (img : List Byte) : (s.loaded img).fb = Surface.clear := rfl
@[simp] theorem State.loaded_dp (img : List Byte) : (s.loaded img).dp = false := rfl
@[simp] theorem State.loaded_draws (img : List Byte) : (s.loaded img).draws = s.draws := rfl

/-- Every register is 0 after a load. -/
@[simp] theorem State.readV_loaded (img : List Byte) (r : Reg) : (s.loaded img).readV r = 0 := by
  simp [State.readV]

/-- Every stack slot is 0 after a load. -/
@[simp] theorem State.readStk_loaded (img : List Byte) (k : Fin 16) : (s.loaded img).readStk k = 0 := by
  simp [State.readStk]

/-- Every cell of the clear surface is dark. -/
@[simp] theorem Surface.cell_clear (px : Fin 64) (py : Fin 32) : Surface.clear.cell px py = false := by
  simp [Surface.cell, Surface.clear]

/-- States that agree in every register and every other field are equal. -/
theorem State.ext_readV {s t : State} (hv : ∀ r, s.readV r = t.readV r) (hi : s.i = t.i) (hpc : s.pc = t.pc)
    (hsp : s.sp = t.sp) (hstk : s.stk = t.stk) (hdt : s.dt = t.dt) (hst : s.st = t.st) (hmem : s.mem = t.mem)
    (hfb : s.fb = t.fb) (hdp : s.dp = t.dp) (hdraws : s.draws = t.draws) : s = t := by
  have h : s.v = t.v := Vector.ext fun k hk => hv ⟨k, hk⟩
  cases s; cases t; simp_all

end Sys2Proof.Machine
end

