-- ==== Sys2Proof/Laws/Ops.lean ====
section
/-! SUPPORT. One lemma per shared operation: the bounds test, running under it, the fetch, the operand forms and the
flag computations. -/

namespace Sys2Proof.Machine

/-! ## The bounds test (20_memory.md R53) -/

theorem rangeInMemory_iff (a c : Nat) : rangeInMemory a c = true ↔ c = 0 ∨ a + c ≤ 4096 := by
  simp only [rangeInMemory, Bool.or_eq_true, beq_iff_eq, decide_eq_true_eq, Config.memSize]; omega

theorem withRange_next {a c : Nat} {k : Host.Outcome State Fault Refusal} {t : State} :
    withRange a c k = .next t ↔ (c = 0 ∨ a + c ≤ 4096) ∧ k = .next t := by
  rw [← rangeInMemory_iff]; unfold withRange raise; split <;> simp_all

theorem withRange_fault {a c : Nat} {t : State} {f : Fault} :
    withRange a c (.next t) = .fault f ↔ (c ≠ 0 ∧ 4096 < a + c) ∧ f = .outOfBoundsAccess := by
  unfold withRange raise
  split
  · next h =>
    rw [rangeInMemory_iff] at h
    simp only [reduceCtorEq, false_iff, not_and]; omega
  · next h =>
    rw [rangeInMemory_iff] at h
    have h' : c ≠ 0 ∧ 4096 < a + c := by omega
    simp only [Host.Outcome.fault.injEq, h', ne_eq, not_false_eq_true, and_self, true_and, eq_comm]

theorem withRange_not_refused {a c : Nat} {t : State} {r : Refusal} : withRange a c (.next t) ≠ .refused r := by
  unfold withRange raise; split <;> simp

/-- Where the range lies in memory, the continuation runs. -/
theorem withRange_in {a c : Nat} (k : Host.Outcome State Fault Refusal) (h : c = 0 ∨ a + c ≤ 4096) :
    withRange a c k = k := by
  unfold withRange; rw [if_pos ((rangeInMemory_iff a c).2 h)]

/-- Where it does not, nothing is written. -/
theorem withRange_out {a c : Nat} (k : Host.Outcome State Fault Refusal) (h : c ≠ 0 ∧ 4096 < a + c) :
    withRange a c k = .fault .outOfBoundsAccess := by
  have : ¬ rangeInMemory a c = true := by rw [rangeInMemory_iff]; omega
  unfold withRange raise; rw [if_neg this]

/-! ## Fetch (30_encoding.md R70) -/

theorem fetchWord_ok {s : State} (h : s.pc.toNat + 1 ≤ 4095) :
    fetchWord s = .ok (wordOfBytes (s.readByte s.pc.toNat) (s.readByte (s.pc.toNat + 1))) := by
  unfold fetchWord; rw [if_pos ((rangeInMemory_iff _ _).2 (by simp only [Config.insnLen]; omega))]

theorem fetchWord_out {s : State} (h : 4095 < s.pc.toNat + 1) : fetchWord s = .error .outOfBoundsAccess := by
  have : ¬ rangeInMemory s.pc.toNat Config.insnLen = true := by
    rw [rangeInMemory_iff]; simp only [Config.insnLen]; omega
  unfold fetchWord; rw [if_neg this]

/-- When an instruction is fetched: the pc addresses two bytes of memory, and their word decodes to it. -/
theorem fetchInstr_ok_iff {s : State} {i : Instr} :
    fetchInstr s = .ok i ↔ s.pc.toNat + 1 ≤ 4095 ∧
      decode (wordOfBytes (s.readByte s.pc.toNat) (s.readByte (s.pc.toNat + 1))) = .ok i := by
  by_cases h : s.pc.toNat + 1 ≤ 4095
  · simp only [fetchInstr, fetchWord_ok h, h, true_and]; split <;> simp_all
  · simp only [fetchInstr, fetchWord_out (Nat.lt_of_not_le h), h, false_and]; simp

/-! ## Operand forms -/

@[simp] theorem zext16_toNat (nnn : Addr12) : (zext16 nnn).toNat = nnn.toNat := by
  have := nnn.isLt
  simp only [zext16, BitVec.toNat_setWidth]; omega

/-- V0..Vx are the registers numbered at most `x`. -/
theorem mem_regsUpTo (x k : Reg) : k ∈ regsUpTo x ↔ k ≤ x := by
  have : k ∈ allRegs := by revert k; decide
  simp [regsUpTo, this]

@[simp] theorem regsUpTo_length : ∀ x : Reg, (regsUpTo x).length = x.val + 1 := by decide

theorem regsUpTo_getElem : ∀ (x : Reg) (k : Fin (regsUpTo x).length), ((regsUpTo x)[k.val]).val = k.val := by decide

@[simp] theorem State.rangeBytes_length (s : State) (x : Reg) : (s.rangeBytes x).length = x.val + 1 := by
  simp [State.rangeBytes]

/-- Byte `k` of the stored range is register `k` (44_memory_ops.md R153). -/
theorem State.rangeBytes_getElem (s : State) (x k : Reg) (h : k.val < (s.rangeBytes x).length) :
    (s.rangeBytes x)[k.val] = s.readV k := by
  simp only [State.rangeBytes, List.getElem_map]
  congr 1
  exact Fin.ext (regsUpTo_getElem x ⟨k.val, by simpa [State.rangeBytes] using h⟩)

theorem foldl_setV_readV (f : Reg → Byte) (r : Reg) : ∀ (ks : List Reg) (t : State),
    (ks.foldl (fun t k => t.setV k (f k)) t).readV r = if r ∈ ks then f r else t.readV r := by
  intro ks
  induction ks with
  | nil => simp
  | cons k ks ih =>
    intro t
    simp only [List.foldl_cons, ih, State.readV_setV, List.mem_cons]
    by_cases hr : r ∈ ks <;> by_cases hk : r = k <;> simp_all

theorem foldl_setV_eq (f : Reg → Byte) : ∀ (ks : List Reg) (t : State),
    ∃ v, ks.foldl (fun t k => t.setV k (f k)) t = { t with v := v } := by
  intro ks
  induction ks with
  | nil => exact fun t => ⟨t.v, rfl⟩
  | cons k ks ih =>
    intro t
    obtain ⟨v, hv⟩ := ih (t.setV k (f k))
    exact ⟨v, by rw [List.foldl_cons, hv]; rfl⟩

/-- Registers after a range load (44_memory_ops.md R154): register `k <= x` from `I + k`, the others as before. -/
@[simp] theorem State.readV_loadRange (s : State) (x r : Reg) :
    (s.loadRange x).readV r = if r ≤ x then s.readByte (s.base + r.val) else s.readV r := by
  rw [State.loadRange, foldl_setV_readV (fun k => s.readByte (s.base + k.val))]
  simp [mem_regsUpTo]

/-- A range load changes registers only. -/
theorem State.loadRange_eq (s : State) (x : Reg) : ∃ v, s.loadRange x = { s with v := v } :=
  foldl_setV_eq _ _ _

section LoadRange
variable (s : State) (x : Reg)

@[simp] theorem State.loadRange_i : (s.loadRange x).i = s.i := by
  obtain ⟨v, h⟩ := s.loadRange_eq x; rw [h]
@[simp] theorem State.loadRange_pc : (s.loadRange x).pc = s.pc := by
  obtain ⟨v, h⟩ := s.loadRange_eq x; rw [h]
@[simp] theorem State.loadRange_sp : (s.loadRange x).sp = s.sp := by
  obtain ⟨v, h⟩ := s.loadRange_eq x; rw [h]
@[simp] theorem State.loadRange_stk : (s.loadRange x).stk = s.stk := by
  obtain ⟨v, h⟩ := s.loadRange_eq x; rw [h]
@[simp] theorem State.loadRange_dt : (s.loadRange x).dt = s.dt := by
  obtain ⟨v, h⟩ := s.loadRange_eq x; rw [h]
@[simp] theorem State.loadRange_st : (s.loadRange x).st = s.st := by
  obtain ⟨v, h⟩ := s.loadRange_eq x; rw [h]
@[simp] theorem State.loadRange_mem : (s.loadRange x).mem = s.mem := by
  obtain ⟨v, h⟩ := s.loadRange_eq x; rw [h]
@[simp] theorem State.loadRange_fb : (s.loadRange x).fb = s.fb := by
  obtain ⟨v, h⟩ := s.loadRange_eq x; rw [h]
@[simp] theorem State.loadRange_dp : (s.loadRange x).dp = s.dp := by
  obtain ⟨v, h⟩ := s.loadRange_eq x; rw [h]
@[simp] theorem State.loadRange_draws : (s.loadRange x).draws = s.draws := by
  obtain ⟨v, h⟩ := s.loadRange_eq x; rw [h]
@[simp] theorem State.readByte_loadRange (a : Nat) : (s.loadRange x).readByte a = s.readByte a := by
  simp [State.readByte]
@[simp] theorem State.readStk_loadRange (k : Fin 16) : (s.loadRange x).readStk k = s.readStk k := by
  simp [State.readStk]

end LoadRange

/-- A byte read after consecutive bytes are stored (20_memory.md R54). -/
theorem State.readByte_writeBytes (s : State) (a k : Nat) (bs : List Byte) :
    (s.writeBytes a bs).readByte k = if h : a ≤ k ∧ k < a + bs.length then bs[k - a]'(by omega) else s.readByte k :=
  Memory.read_storeBytes bs s.mem a k

@[simp] theorem State.spriteBytes_length (s : State) (n : Height) : (s.spriteBytes n).length = n.val := by
  simp [State.spriteBytes]

@[simp] theorem State.spriteBytes_getElem (s : State) (n : Height) (row : Nat) (h : row < (s.spriteBytes n).length) :
    (s.spriteBytes n)[row] = s.readByte (s.base + row) := by
  simp [State.spriteBytes]

@[simp] theorem bcdDigits_length (b : Byte) : (bcdDigits b).length = 3 := rfl

/-! ## Results and flags (42_alu.md R130) -/

@[simp] theorem flagByte_toNat (f : Bool) : (flagByte f).toNat = if f then 1 else 0 := by
  cases f <;> rfl

@[simp] theorem addResult_toNat (a b : Byte) : (addResult a b).toNat = (a.toNat + b.toNat) % 256 := by
  simp [addResult]

@[simp] theorem subResult_toNat (a b : Byte) : (subResult a b).toNat = (a.toNat + 256 - b.toNat) % 256 := by
  simp [subResult]

@[simp] theorem shrResult_toNat (a : Byte) : (shrResult a).toNat = a.toNat / 2 := by
  have := a.isLt
  simp only [shrResult, BitVec.toNat_ofNat]; omega

@[simp] theorem shlResult_toNat (a : Byte) : (shlResult a).toNat = 2 * a.toNat % 256 := by
  simp [shlResult]

/-- The registers after a flag-writing ALU instruction (R120): the flag in VF, the result in Vx unless that is VF. -/
theorem State.readV_writeResultFlag (s : State) (x r : Reg) (b : Byte) (f : Bool) :
    (s.writeResultFlag x b f).readV r = if r = Reg.vf then flagByte f else if r = x then b else s.readV r := by
  simp [State.writeResultFlag]

/-- The bit SHR shifts out, as VF holds it (R127). -/
theorem flagByte_shrFlag : ∀ a : Byte, (flagByte (shrFlag a)).toNat = a.toNat % 2 := by decide

/-- The bit SHL shifts out, as VF holds it (R129). -/
theorem flagByte_shlFlag : ∀ a : Byte, (flagByte (shlFlag a)).toNat = a.toNat / 128 := by decide

/-! A flag-writing ALU instruction changes registers and the pc only. -/

section WriteResultFlag
variable (s : State) (x : Reg) (b : Byte) (f : Bool)

@[simp] theorem State.writeResultFlag_pc : (s.writeResultFlag x b f).pc = s.pc + 2 := rfl
@[simp] theorem State.writeResultFlag_i : (s.writeResultFlag x b f).i = s.i := rfl
@[simp] theorem State.writeResultFlag_sp : (s.writeResultFlag x b f).sp = s.sp := rfl
@[simp] theorem State.writeResultFlag_stk : (s.writeResultFlag x b f).stk = s.stk := rfl
@[simp] theorem State.writeResultFlag_dt : (s.writeResultFlag x b f).dt = s.dt := rfl
@[simp] theorem State.writeResultFlag_st : (s.writeResultFlag x b f).st = s.st := rfl
@[simp] theorem State.writeResultFlag_mem : (s.writeResultFlag x b f).mem = s.mem := rfl
@[simp] theorem State.writeResultFlag_fb : (s.writeResultFlag x b f).fb = s.fb := rfl
@[simp] theorem State.writeResultFlag_dp : (s.writeResultFlag x b f).dp = s.dp := rfl
@[simp] theorem State.writeResultFlag_draws : (s.writeResultFlag x b f).draws = s.draws := rfl
@[simp] theorem State.readByte_writeResultFlag (a : Nat) : (s.writeResultFlag x b f).readByte a = s.readByte a := rfl
@[simp] theorem State.readStk_writeResultFlag (k : Fin 16) : (s.writeResultFlag x b f).readStk k = s.readStk k := rfl

end WriteResultFlag

end Sys2Proof.Machine
end

