-- ==== Sys2Proof/Laws/PerInstr.lean ====
section
/-! SUPPORT. Laws stated instruction by instruction. The family MatchesRow: the word the encoder writes selects the
instruction's own row of 30_encoding.md R76, and every ignored bit of it is 0 (R86). -/

namespace Sys2Proof.Laws.MatchesRow

/-- The encoded word selects the instruction's row, and its ignored bits are 0. -/
def Statement (i : Instr) : Prop := i.row.selects (encode i) = true ∧ encode i &&& i.ignoredBits = 0

theorem of_toNat {i : Instr} (h : (encode i &&& i.row.mask).toNat = i.row.pat.toNat)
    (h' : (encode i &&& i.ignoredBits).toNat = 0) : Statement i :=
  ⟨by simpa [OpRow.selects] using BitVec.eq_of_toNat_eq h, BitVec.eq_of_toNat_eq h'⟩

theorem cls : Statement .cls := by unfold Statement; decide
theorem ret : Statement .ret := by unfold Statement; decide
theorem jp (nnn : Addr12) : Statement (.jp nnn) :=
  of_toNat (by simp only [Instr.row, encode, and_F000_toNat, encADDR_toNat, BitVec.reduceToNat]; omega) (by simp [Instr.ignoredBits])
theorem call (nnn : Addr12) : Statement (.call nnn) :=
  of_toNat (by simp only [Instr.row, encode, and_F000_toNat, encADDR_toNat, BitVec.reduceToNat]; omega) (by simp [Instr.ignoredBits])
theorem seImm (x : Reg) (kk : Byte) : Statement (.seImm x kk) :=
  of_toNat (by simp only [Instr.row, encode, and_F000_toNat, encXKK_toNat, BitVec.reduceToNat]; omega) (by simp [Instr.ignoredBits])
theorem sneImm (x : Reg) (kk : Byte) : Statement (.sneImm x kk) :=
  of_toNat (by simp only [Instr.row, encode, and_F000_toNat, encXKK_toNat, BitVec.reduceToNat]; omega) (by simp [Instr.ignoredBits])
theorem seReg (x : Reg) (y : Reg) : Statement (.seReg x y) :=
  of_toNat (by simp only [Instr.row, encode, and_F000_toNat, encXY_toNat, BitVec.reduceToNat]; omega) (by simp only [Instr.ignoredBits, encode, and_000F_toNat, encXY_toNat, BitVec.reduceToNat]; omega)
theorem ldImm (x : Reg) (kk : Byte) : Statement (.ldImm x kk) :=
  of_toNat (by simp only [Instr.row, encode, and_F000_toNat, encXKK_toNat, BitVec.reduceToNat]; omega) (by simp [Instr.ignoredBits])
theorem addImm (x : Reg) (kk : Byte) : Statement (.addImm x kk) :=
  of_toNat (by simp only [Instr.row, encode, and_F000_toNat, encXKK_toNat, BitVec.reduceToNat]; omega) (by simp [Instr.ignoredBits])
theorem ldReg (x : Reg) (y : Reg) : Statement (.ldReg x y) :=
  of_toNat (by simp only [Instr.row, encode, and_F00F_toNat, encXY_toNat, BitVec.reduceToNat]; omega) (by simp [Instr.ignoredBits])
theorem orReg (x : Reg) (y : Reg) : Statement (.orReg x y) :=
  of_toNat (by simp only [Instr.row, encode, and_F00F_toNat, encXY_toNat, BitVec.reduceToNat]; omega) (by simp [Instr.ignoredBits])
theorem andReg (x : Reg) (y : Reg) : Statement (.andReg x y) :=
  of_toNat (by simp only [Instr.row, encode, and_F00F_toNat, encXY_toNat, BitVec.reduceToNat]; omega) (by simp [Instr.ignoredBits])
theorem xorReg (x : Reg) (y : Reg) : Statement (.xorReg x y) :=
  of_toNat (by simp only [Instr.row, encode, and_F00F_toNat, encXY_toNat, BitVec.reduceToNat]; omega) (by simp [Instr.ignoredBits])
theorem addReg (x : Reg) (y : Reg) : Statement (.addReg x y) :=
  of_toNat (by simp only [Instr.row, encode, and_F00F_toNat, encXY_toNat, BitVec.reduceToNat]; omega) (by simp [Instr.ignoredBits])
theorem subReg (x : Reg) (y : Reg) : Statement (.subReg x y) :=
  of_toNat (by simp only [Instr.row, encode, and_F00F_toNat, encXY_toNat, BitVec.reduceToNat]; omega) (by simp [Instr.ignoredBits])
theorem shr (x : Reg) : Statement (.shr x) :=
  of_toNat (by simp only [Instr.row, encode, and_F00F_toNat, encXY_toNat, BitVec.reduceToNat]; omega) (by simp only [Instr.ignoredBits, encode, and_00F0_toNat, encXY_toNat, BitVec.reduceToNat]; omega)
theorem subnReg (x : Reg) (y : Reg) : Statement (.subnReg x y) :=
  of_toNat (by simp only [Instr.row, encode, and_F00F_toNat, encXY_toNat, BitVec.reduceToNat]; omega) (by simp [Instr.ignoredBits])
theorem shl (x : Reg) : Statement (.shl x) :=
  of_toNat (by simp only [Instr.row, encode, and_F00F_toNat, encXY_toNat, BitVec.reduceToNat]; omega) (by simp only [Instr.ignoredBits, encode, and_00F0_toNat, encXY_toNat, BitVec.reduceToNat]; omega)
theorem sneReg (x : Reg) (y : Reg) : Statement (.sneReg x y) :=
  of_toNat (by simp only [Instr.row, encode, and_F000_toNat, encXY_toNat, BitVec.reduceToNat]; omega) (by simp only [Instr.ignoredBits, encode, and_000F_toNat, encXY_toNat, BitVec.reduceToNat]; omega)
theorem ldI (nnn : Addr12) : Statement (.ldI nnn) :=
  of_toNat (by simp only [Instr.row, encode, and_F000_toNat, encADDR_toNat, BitVec.reduceToNat]; omega) (by simp [Instr.ignoredBits])
theorem rnd (x : Reg) (kk : Byte) : Statement (.rnd x kk) :=
  of_toNat (by simp only [Instr.row, encode, and_F000_toNat, encXKK_toNat, BitVec.reduceToNat]; omega) (by simp [Instr.ignoredBits])
theorem drw (x : Reg) (y : Reg) (n : Height) : Statement (.drw x y n) :=
  of_toNat (by simp only [Instr.row, encode, and_F000_toNat, encXYN_toNat, BitVec.reduceToNat]; omega) (by simp [Instr.ignoredBits])
theorem addI (x : Reg) : Statement (.addI x) :=
  of_toNat (by simp only [Instr.row, encode, and_F0FF_toNat, encXF_toNat, BitVec.reduceToNat]; omega) (by simp [Instr.ignoredBits])
theorem ldB (x : Reg) : Statement (.ldB x) :=
  of_toNat (by simp only [Instr.row, encode, and_F0FF_toNat, encXF_toNat, BitVec.reduceToNat]; omega) (by simp [Instr.ignoredBits])
theorem storeRegs (x : Reg) : Statement (.storeRegs x) :=
  of_toNat (by simp only [Instr.row, encode, and_F0FF_toNat, encXF_toNat, BitVec.reduceToNat]; omega) (by simp [Instr.ignoredBits])
theorem loadRegs (x : Reg) : Statement (.loadRegs x) :=
  of_toNat (by simp only [Instr.row, encode, and_F0FF_toNat, encXF_toNat, BitVec.reduceToNat]; omega) (by simp [Instr.ignoredBits])

end Sys2Proof.Laws.MatchesRow
end

