-- ==== Sys2Proof/Laws/Surface.lean ====
section
/-! SUPPORT. What the sprite compositor does to each cell and when it reports a collision, by induction over columns
and rows. -/

namespace Sys2Proof.Machine

/-- Flipping one cell changes that cell alone. -/
@[simp] theorem Surface.cell_flip (fb : Surface) (px qx : Fin 64) (py qy : Fin 32) :
    (fb.flip px py).cell qx qy = (fb.cell qx qy ^^ decide (qx = px ∧ qy = py)) := by
  simp only [Surface.cell, Surface.flip, Vector.getElem_set]
  by_cases hy : qy = py
  · subst hy
    simp only [if_true, Vector.getElem_set]
    by_cases hx : qx = px
    · subst hx; simp
    · have : px.val ≠ qx.val := fun h => hx (Fin.ext h.symm)
      simp [this, hx]
  · have : py.val ≠ qy.val := fun h => hy (Fin.ext h.symm)
    simp [this, hy]

/-- The flat index of cell `(px, py)` is `py * 64 + px` (10_state.md R30). -/
theorem Surface.flat_getElem? (fb : Surface) (px : Fin 64) (py : Fin 32) :
    fb.flat[py.val * 64 + px.val]? = some (fb.cell px py) := by
  have aux : ∀ (rows : List (Vector Bool 64)) (j : Nat) (hj : j < rows.length),
      ((rows.map Vector.toList).flatten)[j * 64 + px.val]? = some ((rows[j])[px.val]) := by
    intro rows
    induction rows with
    | nil => intro j hj; simp at hj
    | cons r rest ih =>
      intro j hj
      simp only [List.map_cons, List.flatten_cons]
      cases j with
      | zero =>
        rw [List.getElem?_append_left (by simp)]
        simp
      | succ j =>
        have hsub : (j + 1) * 64 + px.val - r.toList.length = j * 64 + px.val := by simp; omega
        rw [List.getElem?_append_right (by simp; omega), hsub, ih j (by simpa using hj)]
        simp
  have := aux fb.toList py.val (by simp)
  simpa [Surface.flat, Surface.cell] using this

/-! ## Drawing a set of cells -/

/-- From `a` to `b` exactly the cells of `P` changed, and a collision was recorded if one of them was 1. -/
structure Draws (a b : Surface × Bool) (P : Fin 64 → Fin 32 → Prop) : Prop where
  cell : ∀ qx qy, b.1.cell qx qy ≠ a.1.cell qx qy ↔ P qx qy
  hit : b.2 = true ↔ a.2 = true ∨ ∃ qx qy, P qx qy ∧ a.1.cell qx qy = true

theorem Draws.refl (a : Surface × Bool) : Draws a a fun _ _ => False := ⟨by simp, by simp⟩

/-- The same set of cells under another description. -/
theorem Draws.congr {a b : Surface × Bool} {P Q : Fin 64 → Fin 32 → Prop} (h : Draws a b P)
    (hPQ : ∀ qx qy, P qx qy ↔ Q qx qy) : Draws a b Q := by
  have : P = Q := by funext qx qy; exact propext (hPQ qx qy)
  exact this ▸ h

/-- Two drawings of disjoint sets of cells, one after the other. -/
theorem Draws.trans {a b c : Surface × Bool} {P Q : Fin 64 → Fin 32 → Prop} (hab : Draws a b P) (hbc : Draws b c Q)
    (hd : ∀ qx qy, P qx qy → ¬ Q qx qy) : Draws a c fun qx qy => P qx qy ∨ Q qx qy := by
  have same : ∀ qx qy, ¬ P qx qy → b.1.cell qx qy = a.1.cell qx qy := fun qx qy h => by
    by_contra hne; exact h ((hab.cell qx qy).1 hne)
  have same' : ∀ qx qy, ¬ Q qx qy → c.1.cell qx qy = b.1.cell qx qy := fun qx qy h => by
    by_contra hne; exact h ((hbc.cell qx qy).1 hne)
  refine ⟨fun qx qy => ?_, ?_⟩
  · by_cases hP : P qx qy
    · rw [same' qx qy (hd qx qy hP), hab.cell]; simp [hP]
    · rw [← same qx qy hP, hbc.cell]; simp [hP]
  · rw [hbc.hit, hab.hit]
    constructor
    · rintro ((h | ⟨qx, qy, hP, h⟩) | ⟨qx, qy, hQ, h⟩)
      · exact .inl h
      · exact .inr ⟨qx, qy, .inl hP, h⟩
      · exact .inr ⟨qx, qy, .inr hQ, by rwa [same qx qy fun hP => hd qx qy hP hQ] at h⟩
    · rintro (h | ⟨qx, qy, hP | hQ, h⟩)
      · exact .inl (.inl h)
      · exact .inl (.inr ⟨qx, qy, hP, h⟩)
      · exact .inr ⟨qx, qy, hQ, by rwa [same qx qy fun hP => hd qx qy hP hQ]⟩

/-! ## The compositor -/

/-- One sprite pixel draws its own cell if its bit is 1, and nothing otherwise. -/
theorem drawPixel_draws (px : Fin 64) (py : Fin 32) (bit : Bool) (acc : Surface × Bool) :
    Draws acc (drawPixel px py bit acc) fun qx qy => bit = true ∧ qx = px ∧ qy = py := by
  cases bit
  · exact (Draws.refl acc).congr (by simp)
  · refine ⟨fun qx qy => ?_, ?_⟩
    · by_cases h : qx = px ∧ qy = py <;> simp [drawPixel, h]
    · simp [drawPixel]

/-- Distinct columns of one sprite row wrap to distinct cells (43_display.md R145). -/
theorem wrapX_inj (ox : Byte) {a b : Nat} (ha : a < 8) (hb : b < 8) (h : wrapX ox a = wrapX ox b) : a = b := by
  simp only [wrapX, Fin.mk.injEq] at h; omega

/-- Distinct rows of one sprite wrap to distinct display rows (43_display.md R145). -/
theorem wrapY_inj (oy : Byte) {a b : Nat} (ha : a < 16) (hb : b < 16) (h : wrapY oy a = wrapY oy b) : a = b := by
  simp only [wrapY, Fin.mk.injEq] at h; omega

/-- Columns `0 .. m-1` of one sprite row. -/
theorem drawCols_draws (ox : Byte) (py : Fin 32) (b : Byte) (acc : Surface × Bool) (m : Nat) (hm : m ≤ 8) :
    Draws acc ((List.range m).foldl (fun acc col => drawPixel (wrapX ox col) py (spriteBit b col) acc) acc)
      fun qx qy => ∃ col < m, spriteBit b col = true ∧ qx = wrapX ox col ∧ qy = py := by
  induction m with
  | zero => exact (Draws.refl acc).congr (by simp)
  | succ m ih =>
    rw [List.range_succ, List.foldl_append, List.foldl_cons, List.foldl_nil]
    refine ((ih (by omega)).trans (drawPixel_draws _ _ _ _) ?_).congr fun qx qy => ?_
    · rintro qx qy ⟨col, hcol, _, hx, _⟩ ⟨_, hx', _⟩
      have := wrapX_inj ox (by omega) (by omega) (hx.symm.trans hx')
      omega
    · constructor
      · rintro (⟨col, hcol, h⟩ | h)
        · exact ⟨col, by omega, h⟩
        · exact ⟨m, by omega, h⟩
      · rintro ⟨col, hcol, h⟩
        rcases Nat.lt_succ_iff_lt_or_eq.1 hcol with hlt | rfl
        · exact .inl ⟨col, hlt, h⟩
        · exact .inr h

/-- Cell `(qx, qy)` is covered by a 1 bit of one of the sprite's rows, numbered from `row0`. -/
def SpriteHits (ox oy : Byte) (row0 : Nat) (bytes : List Byte) (qx : Fin 64) (qy : Fin 32) : Prop :=
  ∃ k, ∃ h : k < bytes.length, ∃ col < 8, spriteBit bytes[k] col = true ∧ qx = wrapX ox col ∧ qy = wrapY oy (row0 + k)

theorem SpriteHits_cons (ox oy : Byte) (row0 : Nat) (b : Byte) (bs : List Byte) (qx : Fin 64) (qy : Fin 32) :
    SpriteHits ox oy row0 (b :: bs) qx qy ↔
      (∃ col < 8, spriteBit b col = true ∧ qx = wrapX ox col ∧ qy = wrapY oy row0) ∨
        SpriteHits ox oy (row0 + 1) bs qx qy := by
  have shift : ∀ k, row0 + 1 + k = row0 + (k + 1) := fun k => by omega
  constructor
  · rintro ⟨k, hk, h⟩
    cases k with
    | zero => exact .inl h
    | succ k => exact .inr ⟨k, by simpa using hk, by simpa only [shift, List.getElem_cons_succ] using h⟩
  · rintro (h | ⟨k, hk, h⟩)
    · exact ⟨0, by simp, h⟩
    · exact ⟨k + 1, by simpa using hk, by simpa only [shift, List.getElem_cons_succ] using h⟩

/-- The sprite's rows from number `row0`. -/
theorem drawRows_draws (ox oy : Byte) (bytes : List Byte) : ∀ (row0 : Nat) (acc : Surface × Bool),
    row0 + bytes.length ≤ 16 → Draws acc (drawRows ox oy row0 bytes acc) (SpriteHits ox oy row0 bytes) := by
  induction bytes with
  | nil => intro row0 acc _; exact (Draws.refl acc).congr (by simp [SpriteHits])
  | cons b bs ih =>
    intro row0 acc hlen
    simp only [List.length_cons] at hlen
    refine ((drawCols_draws ox (wrapY oy row0) b acc 8 (Nat.le_refl 8)).trans (ih (row0 + 1) _ (by omega)) ?_).congr
      fun qx qy => (SpriteHits_cons ox oy row0 b bs qx qy).symm
    rintro qx qy ⟨_, _, _, _, hy⟩ ⟨k, hk, _, _, _, _, hy'⟩
    have := wrapY_inj oy (by omega) (by omega) (hy.symm.trans hy')
    omega

/-- The sprite compositor (43_display.md R142): it starts with no collision, flips exactly the covered cells, and
reports a collision exactly when a covered cell was 1. -/
theorem drawSprite_draws (ox oy : Byte) (bytes : List Byte) (fb : Surface) (h : bytes.length ≤ 16) :
    Draws (fb, false) (drawSprite ox oy bytes fb) (SpriteHits ox oy 0 bytes) :=
  drawRows_draws ox oy bytes 0 (fb, false) (by omega)

end Sys2Proof.Machine
end

