-- ==== Sys2Proof/Laws/Step.lean ====
section
/-! SUPPORT. When a step answers a next state, and when each meaning that can fault does: the inversion lemmas that
proofs cite instead of unfolding the machine. -/

namespace Sys2Proof.Machine

/-! ## The step (60_exceptions.md R177) -/

theorem step_of_fetch {s : State} {i : Instr} (h : fetchInstr s = .ok i) : step s = exec i s := by
  simp only [step, h]

/-- Where the fetch would leave memory, a step faults (30_encoding.md R70). -/
theorem step_out {s : State} (h : 4095 < s.pc.toNat + 1) : step s = .fault .outOfBoundsAccess := by
  unfold step fetchInstr
  rw [fetchWord_out h]
  rfl

/-- A word the decoder rejects faults with itself and the pc (60_exceptions.md R161). -/
theorem step_illegal {s : State} {e : DecodeReject} (h : s.pc.toNat + 1 ≤ 4095)
    (d : decode (wordOfBytes (s.readByte s.pc.toNat) (s.readByte (s.pc.toNat + 1))) = .error e) :
    step s = .fault (.unimplementedInstruction (wordOfBytes (s.readByte s.pc.toNat) (s.readByte (s.pc.toNat + 1))) s.pc) := by
  unfold step fetchInstr
  rw [fetchWord_ok h]
  simp only [d, raise]

/-- A step that answers a next state ran one decoded instruction. -/
theorem step_next_iff {s t : State} : step s = .next t ↔ ∃ i, fetchInstr s = .ok i ∧ exec i s = .next t := by
  unfold step raise
  split <;> simp_all

/-- A run of the core, one step longer. -/
theorem core_run_succ {s t : State} (h : step s = .next t) (k : Nat) :
    Sys2Proof.core.run (k + 1) s = Sys2Proof.core.run k t := by
  have h' : Sys2Proof.core.step s = .next t := h
  simp only [Host.Core.run, h']

/-! ## Meanings that can fault -/

theorem execRet_next {s t : State} : execRet s = .next t ↔
    ∃ k : Fin 16, s.sp.toNat = k.val + 1 ∧ (s.setSp (s.sp - 1)).setPc (s.readStk k + 2) = t := by
  unfold execRet raise
  split
  · next h => simp only [reduceCtorEq, false_iff]; rintro ⟨k, hk, _⟩; omega
  · next h0 =>
    split
    · next h1 => simp only [reduceCtorEq, false_iff]; rintro ⟨k, hk, _⟩; omega
    · next h1 =>
      constructor
      · intro h
        exact ⟨⟨s.sp.toNat - 1, by omega⟩, by simp only; omega, by simpa using h⟩
      · rintro ⟨k, hk, h⟩
        have : (⟨s.sp.toNat - 1, by omega⟩ : Fin 16) = k := Fin.ext (by simp only; omega)
        rw [this, h]

theorem execRet_fault {s : State} {f : Fault} : execRet s = .fault f ↔
    (s.sp.toNat = 0 ∧ f = .stackUnderflow) ∨ (16 < s.sp.toNat ∧ f = .stackOverflow) := by
  unfold execRet raise
  split
  · next h => simp [h, eq_comm]
  · split
    · next h0 h1 => simp [h0, h1, eq_comm]
    · next h0 h1 => simp only [reduceCtorEq, false_iff]; omega

theorem execCall_next {s t : State} {nnn : Addr12} : execCall nnn s = .next t ↔
    ∃ h : s.sp.toNat < 16, (s.pushPc h).setPc (zext16 nnn) = t := by
  unfold execCall raise; split <;> simp_all

theorem execCall_fault {s : State} {nnn : Addr12} {f : Fault} : execCall nnn s = .fault f ↔
    16 ≤ s.sp.toNat ∧ f = .stackOverflow := by
  unfold execCall raise
  split
  · next h => simp only [reduceCtorEq, false_iff]; omega
  · next h => simp [Nat.le_of_not_lt h, eq_comm]

theorem execDrw_next {s t : State} {x y : Reg} {n : Height} : execDrw x y n s = .next t ↔
    (n.val = 0 ∨ s.base + n.val ≤ 4096) ∧ s.drawn x y n = t := by
  simp [execDrw, withRange_next]

theorem execLdB_next {s t : State} {x : Reg} : execLdB x s = .next t ↔
    s.base + 3 ≤ 4096 ∧ (s.writeBytes s.base (bcdDigits (s.readV x))).advance = t := by
  simp [execLdB, withRange_next]

theorem execStoreRegs_next {s t : State} {x : Reg} : execStoreRegs x s = .next t ↔
    s.base + (x.val + 1) ≤ 4096 ∧ (s.writeBytes s.base (s.rangeBytes x)).advance = t := by
  simp [execStoreRegs, withRange_next]

theorem execLoadRegs_next {s t : State} {x : Reg} : execLoadRegs x s = .next t ↔
    s.base + (x.val + 1) ≤ 4096 ∧ (s.loadRange x).advance = t := by
  simp [execLoadRegs, withRange_next]

/-! ## The state DRW leaves -/

section Drawn
variable (s : State) (x y : Reg) (n : Height)

@[simp] theorem State.drawn_i : (s.drawn x y n).i = s.i := rfl
@[simp] theorem State.drawn_pc : (s.drawn x y n).pc = s.pc + 2 := rfl
@[simp] theorem State.drawn_sp : (s.drawn x y n).sp = s.sp := rfl
@[simp] theorem State.drawn_stk : (s.drawn x y n).stk = s.stk := rfl
@[simp] theorem State.drawn_dt : (s.drawn x y n).dt = s.dt := rfl
@[simp] theorem State.drawn_st : (s.drawn x y n).st = s.st := rfl
@[simp] theorem State.drawn_mem : (s.drawn x y n).mem = s.mem := rfl
@[simp] theorem State.drawn_dp : (s.drawn x y n).dp = true := rfl
@[simp] theorem State.drawn_draws : (s.drawn x y n).draws = s.draws := rfl
@[simp] theorem State.drawn_fb :
    (s.drawn x y n).fb = (drawSprite (s.readV x) (s.readV y) (s.spriteBytes n) s.fb).1 := rfl

@[simp] theorem State.readByte_drawn (a : Nat) : (s.drawn x y n).readByte a = s.readByte a := rfl
@[simp] theorem State.readStk_drawn (k : Fin 16) : (s.drawn x y n).readStk k = s.readStk k := rfl
@[simp] theorem State.base_drawn : (s.drawn x y n).base = s.base := rfl

/-- The registers after DRW: the collision in VF, the others as before. -/
@[simp] theorem State.readV_drawn (r : Reg) : (s.drawn x y n).readV r =
    if r = Reg.vf then flagByte (drawSprite (s.readV x) (s.readV y) (s.spriteBytes n) s.fb).2 else s.readV r := by
  simp [State.drawn]

end Drawn

end Sys2Proof.Machine
end

