-- ==== Sys2Proof/Tests/Slice0.lean ====
section
/-! SUPPORT. Tests with expected results from the spec (95_test_vectors.md; the row is named at each test), the refusals
of WellFormed, words written out bit by bit from 30_encoding.md R73 and R76, and for each statement with hypotheses the
witnesses that meet them. -/

namespace Sys2Proof.Tests
open Sys2Proof.Machine

set_option Elab.async false

/-! ## Helpers -/

/-- The state after reset with `w` at the entry point, changed by `f` (the "before" column of the vectors). -/
def before (w : Word) (f : State → State := id) : State := f (State.reset.placeWord w)

/-- `V[x]` set to numbers, in order of the list. -/
def withV (vs : List (Reg × Byte)) (s : State) : State := vs.foldl (fun s r => s.setV r.1 r.2) s

/-- Display cells set to 1. -/
def withLit (cells : List (Fin 64 × Fin 32)) (s : State) : State :=
  s.setFb (cells.foldl (fun fb c => fb.flip c.1 c.2) s.fb)

/-- `I` and the bytes there. -/
def withI (i : Word) (bs : List Byte) (s : State) : State := (s.setI i).writeBytes i.toNat bs

/-- One return address in the slot below `sp`. -/
def withStk (sp : Byte) (k : Fin 16) (w : Word) (s : State) : State := (s.setSp sp).setStk k w

/-- The step answers a next state with the property. -/
def stepsTo (s : State) (p : State → Bool) : Bool :=
  match step s with
  | .next t => p t
  | .fault _ => false
  | .refused _ => false

/-- The fault a step answers. -/
def stepFault (s : State) : Option Fault :=
  match step s with
  | .next _ => none
  | .fault f => some f
  | .refused _ => none

/-- The state after a step that answers one. -/
def stepped (s : State) : State :=
  match step s with
  | .next t => t
  | .fault _ => s
  | .refused _ => s

/-- The meaning answers a next state. -/
def runs (i : Instr) (s : State) : Bool :=
  match exec i s with
  | .next _ => true
  | .fault _ => false
  | .refused _ => false

/-- The columns of display row `py` that hold 1. -/
def litRow (s : State) (py : Fin 32) : List Nat :=
  ((List.finRange 64).filter fun px => s.fb.cell px py).map Fin.val

/-- Memory bytes from `a`. -/
def bytes (s : State) (a n : Nat) : List Byte := (List.range n).map fun k => s.readByte (a + k)

/-! ## WellFormed refuses ill-formed terms (10_state.md R26) -/

theorem test_wf_refuses_odd_jump : (Instr.jp 0x201).wf = false := by decide
theorem test_wf_refuses_low_jump : (Instr.jp 0x1FE).wf = false := by decide
theorem test_wf_refuses_odd_call : (Instr.call 0xFFF).wf = false := by decide
theorem test_wf_refuses_low_call : (Instr.call 0x000).wf = false := by decide
theorem test_wf_admits_jump : (Instr.jp 0x200).wf = true ∧ (Instr.call 0xFFE).wf = true := by decide

/-! ## Decoding: every row's word written out from its template (30_encoding.md R73, R76) -/

theorem test_decode_system :
    decode 0b0000_0000_1110_0000 = .ok .cls ∧ decode 0b0000_0000_1110_1110 = .ok .ret := by decide +kernel
theorem test_decode_control :
    decode 0b0001_0010_0011_0100 = .ok (.jp 0x234) ∧ decode 0b0010_0011_0000_0000 = .ok (.call 0x300) ∧
    decode 0b0011_0101_0000_0101 = .ok (.seImm 5 5) ∧ decode 0b0100_0011_0001_0001 = .ok (.sneImm 3 0x11) ∧
    decode 0b0101_0001_0010_0000 = .ok (.seReg 1 2) ∧ decode 0b1001_0001_0010_0000 = .ok (.sneReg 1 2) := by
  decide +kernel
theorem test_decode_immediate :
    decode 0b0110_1010_0010_1111 = .ok (.ldImm 10 0x2F) ∧ decode 0b0111_0010_0010_0000 = .ok (.addImm 2 0x20) ∧
    decode 0b1010_0010_1111_0000 = .ok (.ldI 0x2F0) ∧ decode 0b1100_0011_0000_1111 = .ok (.rnd 3 0x0F) := by
  decide +kernel
theorem test_decode_alu :
    decode 0b1000_0011_0100_0000 = .ok (.ldReg 3 4) ∧ decode 0b1000_0001_0010_0001 = .ok (.orReg 1 2) ∧
    decode 0b1000_0001_0010_0010 = .ok (.andReg 1 2) ∧ decode 0b1000_0001_0010_0011 = .ok (.xorReg 1 2) ∧
    decode 0b1000_0001_0010_0100 = .ok (.addReg 1 2) ∧ decode 0b1000_0001_0010_0101 = .ok (.subReg 1 2) ∧
    decode 0b1000_0101_0000_0110 = .ok (.shr 5) ∧ decode 0b1000_0001_0010_0111 = .ok (.subnReg 1 2) ∧
    decode 0b1000_0101_0000_1110 = .ok (.shl 5) := by decide +kernel
theorem test_decode_display : decode 0b1101_0001_0010_1111 = .ok (.drw 1 2 15) := by decide +kernel
theorem test_decode_memory :
    decode 0b1111_0010_0001_1110 = .ok (.addI 2) ∧ decode 0b1111_0011_0011_0011 = .ok (.ldB 3) ∧
    decode 0b1111_0010_0101_0101 = .ok (.storeRegs 2) ∧ decode 0b1111_0001_0110_0101 = .ok (.loadRegs 1) := by
  decide +kernel
/-- The legal words with ignored bits set (95_test_vectors.md 2.6). -/
theorem test_decode_ignored_bits :
    decode 0x0AEE = .ok .ret ∧ decode 0x07E0 = .ok .cls ∧ decode 0x512F = .ok (.seReg 1 2) ∧
    decode 0x9121 = .ok (.sneReg 1 2) ∧ decode 0x8576 = .ok (.shr 5) ∧ decode 0x857E = .ok (.shl 5) := by decide +kernel
/-- The illegal words X1 to X7. -/
theorem test_decode_illegal :
    ([0x0000, 0x00E1, 0x00FE, 0x0010, 0x0123, 0x8128, 0x812D, 0x812F, 0xB000, 0xB123, 0xE09E, 0xE0A1,
      0xF007, 0xF00A, 0xF015, 0xF018, 0xF029, 0xF01F, 0xF075, 0xF085, 0xFFFF] : List Word).all
      (fun w => match decode w with | .ok _ => false | .error e => e == .illegalWord w) = true := by decide +kernel
/-- One byte is no instruction; two bytes are, and the rest is left. -/
theorem test_decodeBytes :
    decodeBytes [0x00] = .error .tooShort ∧ decodeBytes [0x00, 0xE0, 0x7F] = .ok (.cls, [0x7F]) := by decide +kernel
/-- The host's two readings of a table word: bit 15 to 8 are the first byte in memory. -/
theorem test_table_word :
    decodeTableWord 16 0x6A2F = some (.ldImm 10 0x2F) ∧
    stepsTo (State.reset.withFetchWord 16 0x6A2F) (fun t => t.readV 10 == 0x2F && t.pc == 0x202) = true := by
  decide +kernel

/-! ## One step per instruction (95_test_vectors.md sections 1 and 2) -/

/-- C1, and C5's boundary is in the witnesses below. -/
theorem test_ret : stepsTo (before 0x00EE (withStk 1 0 0x204))
    (fun t => t.pc == 0x206 && t.sp == 0 && t.readStk 0 == 0x204) = true := by decide +kernel
/-- C4. -/
theorem test_ret_empty : stepFault (before 0x00EE) = some .stackUnderflow := by decide +kernel
/-- C8: an odd target is not checked. -/
theorem test_jp : stepsTo (before 0x1201) (fun t => t.pc == 0x201) = true := by decide +kernel
/-- C7. -/
theorem test_jp_self : stepsTo (before 0x1200) (fun t => t == before 0x1200) = true := by decide +kernel
/-- C12. -/
theorem test_call : stepsTo (before 0x2300 (·.setSp 15))
    (fun t => t.readStk 15 == 0x200 && t.sp == 16 && t.pc == 0x300) = true := by decide +kernel
/-- C13. -/
theorem test_call_full : stepFault (before 0x2300 (·.setSp 16)) = some .stackOverflow := by decide +kernel
/-- C15, C16. -/
theorem test_seImm : stepsTo (before 0x3505 (withV [(5, 5)])) (·.pc == 0x204) = true ∧
    stepsTo (before 0x3506 (withV [(5, 5)])) (·.pc == 0x202) = true := by decide +kernel
/-- C20, C21. -/
theorem test_sneImm : stepsTo (before 0x4311 (withV [(3, 0x10)])) (·.pc == 0x204) = true ∧
    stepsTo (before 0x4310 (withV [(3, 0x10)])) (·.pc == 0x202) = true := by decide +kernel
/-- C25, C23. -/
theorem test_seReg : stepsTo (before 0x512F (withV [(1, 7), (2, 7)])) (·.pc == 0x204) = true ∧
    stepsTo (before 0x5120 (withV [(1, 7), (2, 8)])) (·.pc == 0x202) = true := by decide +kernel
/-- C29, C27. -/
theorem test_sneReg : stepsTo (before 0x9121 (withV [(1, 7), (2, 8)])) (·.pc == 0x204) = true ∧
    stepsTo (before 0x9120 (withV [(1, 7), (2, 7)])) (·.pc == 0x202) = true := by decide +kernel
/-- S1 in register VF (I2). -/
theorem test_ldImm : stepsTo (before 0x6FAB) (fun t => t.readV 15 == 0xAB && t.pc == 0x202) = true := by decide +kernel
/-- I5: the wrap leaves VF at 1. -/
theorem test_addImm : stepsTo (before 0x7201 (withV [(2, 0xFF), (15, 1)]))
    (fun t => t.readV 2 == 0 && t.readV 15 == 1 && t.pc == 0x202) = true := by decide +kernel
/-- I10. -/
theorem test_ldI : stepsTo (before 0xAFFF (·.setI 0x1234)) (fun t => t.i == 0x0FFF && t.pc == 0x202) = true := by
  decide +kernel
/-- I13 and I14, with the random byte supplied. -/
theorem test_rnd : (rndWith 0xA7 3 0x0F State.reset).readV 3 = 0x07 ∧ (rndWith 0xA7 3 0xFF State.reset).readV 3 = 0xA7 := by
  decide +kernel
/-- A1. -/
theorem test_ldReg : stepsTo (before 0x8340 (withV [(4, 0x99)])) (fun t => t.readV 3 == 0x99 && t.readV 4 == 0x99) = true := by
  decide +kernel
/-- A6. -/
theorem test_orReg : stepsTo (before 0x8121 (withV [(1, 0xF0), (2, 0x0F), (15, 1)]))
    (fun t => t.readV 1 == 0xFF && t.readV 15 == 1) = true := by decide +kernel
/-- A9. -/
theorem test_andReg : stepsTo (before 0x8122 (withV [(1, 0xF3), (2, 0x3C), (15, 1)]))
    (fun t => t.readV 1 == 0x30 && t.readV 15 == 1) = true := by decide +kernel
/-- A12. -/
theorem test_xorReg : stepsTo (before 0x8123 (withV [(1, 0xFF), (2, 0x0F), (15, 1)]))
    (fun t => t.readV 1 == 0xF0 && t.readV 15 == 1) = true := by decide +kernel
/-- S2, A13. -/
theorem test_addReg : stepsTo (before 0x8124 (withV [(1, 0xFA), (2, 0x0A)]))
    (fun t => t.readV 1 == 0x04 && t.readV 15 == 1) = true ∧
    stepsTo (before 0x8124 (withV [(1, 0xFE), (2, 0x01), (15, 1)]))
    (fun t => t.readV 1 == 0xFF && t.readV 15 == 0) = true := by decide +kernel
/-- A18: the flag wins in VF. -/
theorem test_addReg_vf : stepsTo (before 0x8F24 (withV [(15, 0xF0), (2, 0x20)])) (fun t => t.readV 15 == 1) = true := by
  decide +kernel
/-- S3. -/
theorem test_subReg : stepsTo (before 0x8125 (withV [(1, 5), (2, 10)]))
    (fun t => t.readV 1 == 0xFB && t.readV 15 == 0) = true ∧
    stepsTo (before 0x8125 (withV [(1, 10), (2, 5)])) (fun t => t.readV 1 == 5 && t.readV 15 == 1) = true := by
  decide +kernel
/-- A22: equal operands give flag 0. -/
theorem test_subReg_equal : stepsTo (before 0x8125 (withV [(1, 7), (2, 7), (15, 1)]))
    (fun t => t.readV 1 == 0 && t.readV 15 == 0) = true := by decide +kernel
/-- A29. -/
theorem test_shr : stepsTo (before 0x8576 (withV [(5, 0x81), (7, 0x02)]))
    (fun t => t.readV 5 == 0x40 && t.readV 15 == 1 && t.readV 7 == 0x02) = true := by decide +kernel
/-- A33, A34. -/
theorem test_shr_vf : stepsTo (before 0x8F06 (withV [(15, 0x03)])) (·.readV 15 == 1) = true ∧
    stepsTo (before 0x8F06 (withV [(15, 0x02)])) (·.readV 15 == 0) = true := by decide +kernel
/-- A35, A37. -/
theorem test_subnReg : stepsTo (before 0x8127 (withV [(1, 5), (2, 10)]))
    (fun t => t.readV 1 == 5 && t.readV 15 == 1) = true ∧
    stepsTo (before 0x8127 (withV [(1, 7), (2, 7), (15, 1)])) (fun t => t.readV 1 == 0 && t.readV 15 == 0) = true := by
  decide +kernel
/-- S4 with A40's ignored `y` field. -/
theorem test_shl : stepsTo (before 0x857E (withV [(5, 0x81), (7, 0x01)]))
    (fun t => t.readV 5 == 0x02 && t.readV 15 == 1 && t.readV 7 == 0x01) = true := by decide +kernel
/-- A44, A45. -/
theorem test_shl_vf : stepsTo (before 0x8F0E (withV [(15, 0xC0)])) (·.readV 15 == 1) = true ∧
    stepsTo (before 0x8F0E (withV [(15, 0x41)])) (·.readV 15 == 0) = true := by decide +kernel
/-- D1. -/
theorem test_cls : stepsTo (before 0x00E0 (withLit [(0, 0), (5, 7), (63, 31)]))
    (fun t => litRow t 0 == [] && litRow t 7 == [] && litRow t 31 == [] && t.dp) = true := by decide +kernel
/-- D5: two rows and the bit order. -/
theorem test_drw : stepsTo (before 0xD122 (withV [(1, 10), (2, 5)] ∘ withI 0x300 [0x80, 0x01]))
    (fun t => litRow t 5 == [10] && litRow t 6 == [17] && t.readV 15 == 0 && t.dp) = true := by decide +kernel
/-- D7 and D15: collision, and wrap from the far corner. -/
theorem test_drw_collides_and_wraps :
    stepsTo (before 0xD011 (withLit [(3, 0), (4, 0)] ∘ withI 0x300 [0xF0]))
      (fun t => litRow t 0 == [0, 1, 2, 4] && t.readV 15 == 1) = true ∧
    stepsTo (before 0xD011 (withV [(0, 0xFF), (1, 0xFF)] ∘ withI 0x300 [0xC0]))
      (fun t => litRow t 31 == [0, 63] && t.readV 15 == 0) = true := by decide +kernel
/-- M3. -/
theorem test_addI : stepsTo (before 0xF21E (withV [(2, 1)] ∘ (·.setI 0xFFFF)))
    (fun t => t.i == 0 && t.readV 15 == 0 && t.pc == 0x202) = true := by decide +kernel
/-- S10. -/
theorem test_ldB : stepsTo (before 0xF333 (withV [(3, 0xE7)] ∘ (·.setI 0x400)))
    (fun t => bytes t 0x400 3 == [2, 3, 1] && t.i == 0x400) = true := by decide +kernel
/-- M7: zeros overwrite, and leave the canonical memory. -/
theorem test_ldB_zero : stepsTo (before 0xF333 (withI 0x400 [9, 9, 9]))
    (fun t => t.mem == (before 0xF333).mem) = true := by decide +kernel
/-- M21. -/
theorem test_storeRegs : stepsTo (before 0xF355 (withV [(0, 1), (1, 2), (2, 3), (3, 4)] ∘ (·.setI 0xFFC)))
    (fun t => bytes t 0xFFC 4 == [1, 2, 3, 4] && t.i == 0xFFC) = true := by decide +kernel
/-- M22. -/
theorem test_storeRegs_out : stepFault (before 0xF355 (withV [(0, 1), (1, 2), (2, 3), (3, 4)] ∘ (·.setI 0xFFD))) =
    some .outOfBoundsAccess := by decide +kernel
/-- M25. -/
theorem test_loadRegs : stepsTo (before 0xF165 (withV [(2, 0x11)] ∘ withI 0x400 [0xAA, 0xBB, 0xCC]))
    (fun t => t.readV 0 == 0xAA && t.readV 1 == 0xBB && t.readV 2 == 0x11 && t.i == 0x400) = true := by decide +kernel

/-! ## Fetch and host operations (95_test_vectors.md 2.6, 2.7) -/

/-- X1, X8, X11. -/
theorem test_fetch : stepFault State.reset = some (.unimplementedInstruction 0x0000 0x0200) ∧
    stepFault (State.reset.setPc 0xFFF) = some .outOfBoundsAccess ∧
    stepsTo ((State.reset.setPc 0x201).placeWord 0x6001) (fun t => t.readV 0 == 1 && t.pc == 0x203) = true := by
  decide +kernel
/-- H2, H3. -/
theorem test_tick : let t := tickTimers (State.reset.setTimers 2 1)
    t.dt = 1 ∧ t.st = 0 ∧ (tickTimers t).dt = 0 ∧ (tickTimers t).st = 0 := by decide +kernel
/-- H4, H5. -/
theorem test_dirty : (hostOp .isDirty (State.reset.setDp true)).2 = .dirty true ∧
    (hostOp .isDirty (hostOp .isDirty (State.reset.setDp true)).1).2 = .dirty false := by decide +kernel
/-- H6, H7. -/
theorem test_pixel : (hostOp (.readPixel 5 2) (withLit [(5, 2)] State.reset)).2 = .pixel true ∧
    (hostOp (.readPixel 2 5) (withLit [(5, 2)] State.reset)).2 = .pixel false := by decide +kernel
/-- H8, H11. -/
theorem test_load_empty : hostOp (.load []) (before 0x6001) = (State.reset, .ok) ∧
    stepFault State.powerOn = some (.unimplementedInstruction 0x0000 0x0000) := by decide +kernel
/-- The reset state's memory is canonical. -/
theorem test_reset_mem_wf : State.reset.mem.wf = true ∧ State.powerOn.mem.wf = true := by decide

/-! ## Witnesses: states and operands that meet the hypotheses of the statements -/

/-- OpcodeMapSelectsRows and every DecodesAs: each row's pattern meets its own mask, and so does the pattern with every
bit outside the mask set. -/
theorem wit_rows : ∀ r ∈ opcodeTable, r.pat &&& r.mask = r.pat ∧ (r.pat ||| ~~~r.mask) &&& r.mask = r.pat := by
  decide +kernel

/-- StepRunsDecodedInstruction, StepIsFetchDecodeExecute: the last fetchable pc (X10). -/
theorem wit_fetch_top : let s := (State.reset.setPc 0xFFE).placeWord 0x6001
    s.pc.toNat + 1 ≤ 4095 ∧
      decode (wordOfBytes (s.readByte s.pc.toNat) (s.readByte (s.pc.toNat + 1))) = .ok (.ldImm 0 1) := by decide +kernel
/-- FetchIsBigEndianAndBounded, FaultsExactly: the first pc that cannot be fetched from (X8). -/
theorem wit_fetch_out : (State.reset.setPc 0xFFF).pc.toNat + 1 > 4095 := by decide
/-- StepIsFetchDecodeExecute, IllegalWordsByClass, FaultsChangeNothingAndRepeat: an illegal word, and a step that faults
on it. -/
theorem wit_illegal : fetchWord State.reset = .ok 0x0000 ∧ decode (wordOfBytes (State.reset.readByte 0x200) (State.reset.readByte 0x201)) =
    .error (.illegalWord 0x0000) ∧ step State.reset = .fault (.unimplementedInstruction 0x0000 0x0200) ∧
    (hostOp .step State.reset).2 = .faulted (.unimplementedInstruction 0x0000 0x0200) :=
  ⟨rfl, by decide +kernel, rfl, by decide +kernel⟩
/-- StepIsFetchDecodeExecute: a step that answers a next state, with `DP` set before it. -/
theorem wit_step_next : ∃ t, step ((before 0x6001).setDp true) = .next t ∧ ((before 0x6001).setDp true).dp = true :=
  ⟨_, rfl, rfl⟩

/-- FaultsExactly: a step into each clause, at the first value of its range (C4, C13, D22, M16, M24, M27). -/
theorem wit_faults : stepFault (before 0x00EE) = some .stackUnderflow ∧
    stepFault (before 0x00EE (·.setSp 17)) = some .stackOverflow ∧
    stepFault (before 0x2300 (·.setSp 16)) = some .stackOverflow ∧
    stepFault (before 0xD011 (·.setI 0x1000)) = some .outOfBoundsAccess ∧
    stepFault (before 0xF333 (·.setI 0xFFE)) = some .outOfBoundsAccess ∧
    stepFault (before 0xF055 (·.setI 0x1000)) = some .outOfBoundsAccess ∧
    stepFault (before 0xF365 (·.setI 0xFFD)) = some .outOfBoundsAccess := by decide +kernel

/-- RetPopsAndAddsTwo: depth 1 and 16 (C1, C3), empty, and the depth no run reaches. -/
theorem wit_ret : (State.reset.setSp 1).sp.toNat = (0 : Fin 16).val + 1 ∧ (State.reset.setSp 16).sp.toNat = (15 : Fin 16).val + 1 ∧
    State.reset.sp.toNat = 0 ∧ (State.reset.setSp 17).sp.toNat > 16 := by decide
/-- RetPopsAndAddsTwo: the return to the end of memory (C5). -/
theorem wit_ret_top : ∃ t, exec .ret (withStk 1 0 0xFFE State.reset) = .next t ∧ t.pc.toNat = 0x1000 :=
  ⟨_, rfl, by decide +kernel⟩
/-- SkipIfEqualImmediate, SkipIfNotEqualImmediate: taken skips at 0xFFC and 0xFFE (C18, C19). -/
theorem wit_skip_top : (State.reset.setPc 0xFFC).readV 0 = 0 ∧ (State.reset.setPc 0xFFC).readV 0 ≠ 1 ∧
    (State.reset.setPc 0xFFC).pc = 0xFFC ∧ (State.reset.setPc 0xFFE).pc = 0xFFE ∧
    (∃ t, exec (.seImm 0 0) (State.reset.setPc 0xFFE) = .next t) ∧
    ∃ t, exec (.sneImm 0 1) (State.reset.setPc 0xFFE) = .next t :=
  ⟨by decide +kernel, by decide +kernel, rfl, rfl, ⟨_, rfl⟩, ⟨_, rfl⟩⟩
/-- JpSetsPc: a jump to its own address, and one to 0xFFF (C7, C10). -/
theorem wit_jp : (0x200 : Addr12).toNat = State.reset.pc.toNat ∧ ∃ t, exec (.jp 0xFFF) State.reset = .next t :=
  ⟨by decide, _, rfl⟩
/-- CallPushesItsOwnAddress, CallThenRetResumes, ReachableStackPointerBounded: depth 0 and 15, and full (C11 to C13). -/
theorem wit_call : State.reset.sp.toNat = (0 : Fin 16).val ∧ (State.reset.setSp 15).sp.toNat = (15 : Fin 16).val ∧
    (State.reset.setSp 16).sp.toNat ≥ 16 ∧ (State.reset.setSp 16).sp.toNat = 16 := by decide
/-- The frames: a register outside the destinations, and a mask bit that is 0. -/
theorem wit_frames : (0 : Reg) ∉ ([] : List Reg) ∧ (0 : Reg) ∉ [(1 : Reg), Reg.vf] ∧ (0 : Reg) ∉ [Reg.vf] ∧
    (0x0F : Byte).getLsbD 4 = false ∧ (1 : Reg) ≠ Reg.vf := by decide
/-- FlagWinsOverResultInVf: registers other than VF, and each form runs. -/
theorem wit_flag : (1 : Reg) ≠ Reg.vf ∧ (2 : Reg) ≠ Reg.vf ∧
    runs (.addReg Reg.vf 2) State.reset = true ∧ runs (.addReg 1 Reg.vf) State.reset = true ∧
    runs (.addReg Reg.vf Reg.vf) State.reset = true ∧ runs (.subReg Reg.vf 2) State.reset = true ∧
    runs (.subnReg Reg.vf 2) State.reset = true ∧ runs (.subReg Reg.vf Reg.vf) State.reset = true ∧
    runs (.subnReg Reg.vf Reg.vf) State.reset = true ∧ runs (.shr Reg.vf) State.reset = true ∧
    runs (.shl Reg.vf) State.reset = true := by decide +kernel
/-- DrawSpriteXorsAndCollides: height 0 with `I` out of range, 15 rows to 0xFFF, and one byte further (D10, D19, D20). -/
theorem wit_drw : ((0 : Height).val = 0 ∧ (State.reset.setI 0xFFFF).base = 0xFFFF) ∧
    (State.reset.setI 0xFF1).base + (15 : Height).val - 1 ≤ 4095 ∧
    ((15 : Height).val ≥ 1 ∧ (State.reset.setI 0xFF2).base + (15 : Height).val - 1 > 4095) := by decide
/-- DrawSpriteXorsAndCollides: a covered cell that is 1 (D6). -/
theorem wit_drw_hit : let s := withLit [(0, 0)] (withI 0x300 [0xF0] State.reset)
    SpriteCovers s 0 1 1 0 0 ∧ s.fb.cell 0 0 = true :=
  ⟨⟨0, by decide, 0, by decide, by decide +kernel, by decide +kernel, by decide +kernel⟩, by decide +kernel⟩
/-- DrawSpriteXorsAndCollides: no covered cell is 1, since none is covered (D9). -/
theorem wit_drw_miss : ¬ ∃ px py, SpriteCovers State.reset 0 1 0 px py ∧ State.reset.fb.cell px py = true := by
  rintro ⟨_, _, ⟨_, h, _⟩, _⟩
  exact absurd h (Nat.not_lt_zero _)
/-- DrawTwiceRestores: a first draw on a dark surface that leaves the origin registers alone, with a byte that is not 0
(S5). -/
theorem wit_draw_twice : let s := withI 0x300 [0xF0] State.reset
    ∃ t, exec (.drw 0 1 1) s = .next t ∧ t.readV 0 = s.readV 0 ∧ t.readV 1 = s.readV 1 ∧
      (∀ px py, s.fb.cell px py = false) ∧ ∃ row < (1 : Height).val, s.readByte (s.base + row) ≠ 0 :=
  ⟨_, rfl, by decide +kernel, by decide +kernel, Surface.cell_clear, 0, by decide, by decide +kernel⟩
/-- DrawTwiceRestores: an all-zero sprite (D11). -/
theorem wit_draw_zero : let s := State.reset.setI 0x300
    (∃ t, exec (.drw 0 1 1) s = .next t) ∧ ∀ row < (1 : Height).val, s.readByte (s.base + row) = 0 :=
  ⟨⟨_, rfl⟩, by decide +kernel⟩
/-- StoreDecimalDigits: the last base in range and the first out of it (M15, M16). -/
theorem wit_ldB : (State.reset.setI 0xFFD).base + 2 ≤ 4095 ∧ (State.reset.setI 0xFFE).base + 2 > 4095 := by decide
/-- StoreRegisterRange, LoadRegisterRange: the last base in range and the first out of it for `x` 0, 3 and 15 (M21 to
M28), and registers within and above the range. -/
theorem wit_range : (State.reset.setI 0xFFF).base + (0 : Reg).val ≤ 4095 ∧ (State.reset.setI 0x1000).base + (0 : Reg).val > 4095 ∧
    (State.reset.setI 0xFFC).base + (3 : Reg).val ≤ 4095 ∧ (State.reset.setI 0xFFD).base + (3 : Reg).val > 4095 ∧
    (State.reset.setI 0xFF0).base + (15 : Reg).val ≤ 4095 ∧ (State.reset.setI 0xFF1).base + (15 : Reg).val > 4095 ∧
    (3 : Reg) ≤ 3 ∧ (3 : Reg) < 4 := by decide
/-- KeepsMemOutside: the addresses next to the stored bytes. -/
theorem wit_outside : ¬ (0x400 ≤ 0x3FF ∧ 0x3FF < 0x400 + 3) ∧ ¬ (0x400 ≤ 0x403 ∧ 0x403 < 0x400 + 3) := by decide
/-- RangeStoreThenLoadRestores: the state right after the store meets the hypotheses. -/
theorem wit_round_trip : let s := withV [(0, 1), (1, 2)] (State.reset.setI 0x400)
    ∃ t, exec (.storeRegs 1) s = .next t ∧ t.i = s.i ∧
      ∀ a, s.base ≤ a → a ≤ s.base + (1 : Reg).val → t.readByte a = t.readByte a :=
  ⟨_, rfl, rfl, fun _ _ _ => rfl⟩
/-- LoadResetsEverything, LoadSizeBoundary, FaultsExactly: the largest image and one byte more (S8). -/
theorem wit_load : ∃ fits big : List Byte, fits.length = 3584 ∧ fits.length ≤ 3584 ∧ big.length = 3585 ∧
    big.length > 3584 ∧ load big State.reset = .fault .programTooLarge := by
  have h : (List.replicate 3584 (0xAA : Byte)).length = 3584 := List.length_replicate
  have h' : (List.replicate 3585 (0xAA : Byte)).length = 3585 := List.length_replicate
  refine ⟨List.replicate 3584 0xAA, List.replicate 3585 0xAA, h, h.le, h', by rw [h']; decide, ?_⟩
  unfold load
  rw [if_neg (by rw [h']; decide)]
  rfl
/-- PixelQueryReads: the last column and row are on the surface, the next are off it. -/
theorem wit_pixel : ((63 : Fin 64).val, (31 : Fin 32).val) = (63, 31) ∧ ((64 > 63 ∨ 0 > 31) ∧ (0 > 63 ∨ 32 > 31)) := by
  decide
/-- IntrospectionIsReadOnly: a pc whose word is legal, and one whose word is not. -/
theorem wit_inspect : (hostOp (.inspect .nextInstruction) (before 0x6001)).2 = .nextInstruction (.ldImm 0 1) ∧
    (hostOp (.inspect .nextInstruction) State.reset).2 = .refused .nextInstructionUnstated := by decide +kernel

/-- A state with the invariant and the convention, about to run `w`, its stack holding one address. -/
def good (w : Word) : State := before w (withStk 1 0 0x204)

theorem good_inv_of {s : State} (h : s.mem.wf = true ∧ s.sp.toNat ≤ 16 ∧ s.pc.toNat ≤ 0x1002 ∧
    (∀ k, (s.readStk k).toNat ≤ 0xFFE) ∧ s.dt = 0 ∧ s.st = 0) : Inv s :=
  ⟨h.1, h.2.1, h.2.2.1, h.2.2.2.1, h.2.2.2.2.1, h.2.2.2.2.2⟩

/-- StepKeepsInvariant: a state with the invariant that steps. -/
theorem wit_inv : Inv (good 0x00EE) ∧ ∃ t, step (good 0x00EE) = .next t :=
  ⟨good_inv_of (by decide +kernel), _, rfl⟩
/-- WellFormedProgramsKeepPcConvention: RET and a well-formed CALL from such a state. -/
theorem wit_convention : Inv (good 0x00EE) ∧ PcConvention (good 0x00EE) ∧ fetchInstr (good 0x00EE) = .ok .ret ∧
    Inv (good 0x2300) ∧ PcConvention (good 0x2300) ∧ fetchInstr (good 0x2300) = .ok (.call 0x300) ∧
    (Instr.call 0x300).wf = true ∧ Instr.ret.wf = true ∧ ∃ t, step (good 0x2300) = .next t :=
  ⟨good_inv_of (by decide +kernel), ⟨by decide +kernel, by decide +kernel, by decide +kernel⟩, rfl,
    good_inv_of (by decide +kernel), ⟨by decide +kernel, by decide +kernel, by decide +kernel⟩, rfl, by decide, by decide,
    _, rfl⟩
/-- The reachable states: power-on, a load of an image that calls itself, and the step after it (P5). -/
theorem wit_reachable : Reachable (hostOp .step (hostOp (.load [0x22, 0x00]) State.powerOn).1).1 ∧
    (hostOp .step (hostOp (.load [0x22, 0x00]) State.powerOn).1).1.sp = 1 :=
  ⟨.op _ (.op _ .powerOn), by decide +kernel⟩
/-- ReachableStackPointerBounded: a CALL raises SP, a RET lowers it. -/
theorem wit_sp_changes : (State.reset.sp.toNat < (stepped (before 0x2300)).sp.toNat) ∧
    (stepped (good 0x00EE)).sp.toNat < (good 0x00EE).sp.toNat := by decide +kernel
/-- ComponentsHaveFewWriters: each component does change under its writers. -/
theorem wit_writers : (stepped (before 0xA2F0)).i ≠ (before 0xA2F0).i ∧
    (stepped (before 0x2300)).sp ≠ (before 0x2300).sp ∧ (stepped (before 0x2300)).stk ≠ (before 0x2300).stk ∧
    (stepped (before 0xF333 (withV [(3, 9)] ∘ (·.setI 0x400)))).mem ≠ (before 0xF333).mem ∧
    (stepped (before 0xD011 (withI 0x300 [0xF0]))).fb ≠ State.reset.fb ∧ (stepped (before 0x00E0)).dp ≠ State.reset.dp ∧
    writesFlag (.shr 5) = true ∧ (stepped (before 0x6FAB)).readV Reg.vf ≠ State.reset.readV Reg.vf ∧
    (stepped (before 0xC30F)).draws ≠ State.reset.draws := by decide +kernel
/-- RegistersReadAndWritten: a register an instruction does not read, one it writes and one it does not; a form that
runs and a form that faults. -/
theorem wit_registers : Reg.vf ∉ readsV (.addReg 1 2) ∧ Reg.vf ∈ writesV (.addReg 1 2) ∧
    (3 : Reg) ∉ readsV (.addReg 1 2) ∧ (3 : Reg) ∉ writesV (.addReg 1 2) ∧ runs (.addReg 1 2) State.reset = true ∧
    (3 : Reg) ∉ readsV .ret ∧ exec .ret State.reset = .fault .stackUnderflow :=
  ⟨by decide, by decide, by decide, by decide, by decide +kernel, by decide, rfl⟩
/-- StoresAreSeenByTheNextFetch: a range store whose first word is the next instruction (P6). -/
theorem wit_self_modify : let s := withV [(0, 0x12), (1, 0x08)] ((before 0xF155).setI 0x202)
    (0 : Reg).val + 1 ≤ (1 : Reg).val ∧ ∃ t, exec (.storeRegs 1) s = .next t ∧ t.pc.toNat = s.base + (0 : Reg).val :=
  ⟨by decide, _, rfl, by decide +kernel⟩
/-- EndOfRunIsFixed: a JP to itself (C7). -/
theorem wit_end_of_run : endOfRun (before 0x1200) = true ∧ endOfRun (before 0x1202) = false := by decide +kernel
/-- OnlyRndDependsOnTheRandomSource: an instruction that is no RND, running and faulting. -/
theorem wit_not_rnd : (∀ x kk, Instr.ret ≠ .rnd x kk) ∧ (∃ t, exec .ret (good 0x00EE) = .next t) ∧
    exec .ret State.reset = .fault .stackUnderflow :=
  ⟨fun _ _ h => (nomatch h), ⟨_, rfl⟩, rfl⟩

end Sys2Proof.Tests
end

section
/-! The effect of one instruction: what an instruction that answers a next state can have done, said once. -/

namespace Sys2Proof.Machine

/-- What an instruction that completes leaves, by the kind of change. Values it computes are left open where only the
component they go to matters; the range it stores to, the stack slot it uses and its jump target are kept. Register
writes and skips are not tied to an instruction here; `exec_keepsV` says which registers each one writes. -/
inductive Effect (s : State) : Instr → State → Prop where
  /-- General registers only: loads, ALU instructions, LD Vx,[I]. -/
  | registers (i : Instr) (v : Vector Byte 16) : Effect s i ({ s with v := v } : State).advance
  | random (x : Reg) (kk : Byte) (v : Vector Byte 16) :
      Effect s (.rnd x kk) ({ s with v := v } : State).advance.countDraw
  | loadI (nnn : Addr12) (w : Word) : Effect s (.ldI nnn) (s.setI w).advance
  | addToI (x : Reg) (w : Word) : Effect s (.addI x) (s.setI w).advance
  | storeDigits (x : Reg) (bs : List Byte) (fits : s.base + bs.length ≤ 4096) :
      Effect s (.ldB x) (s.writeBytes s.base bs).advance
  | storeRange (x : Reg) (bs : List Byte) (fits : s.base + bs.length ≤ 4096) :
      Effect s (.storeRegs x) (s.writeBytes s.base bs).advance
  | clear : Effect s .cls ((s.setFb Surface.clear).setDp true).advance
  | draw (x y : Reg) (n : Height) : Effect s (.drw x y n) (s.drawn x y n)
  | skip (i : Instr) (c : Bool) : Effect s i (s.skipIf c)
  | jump (nnn : Addr12) : Effect s (.jp nnn) (s.setPc (zext16 nnn))
  | call (nnn : Addr12) (room : s.sp.toNat < 16) : Effect s (.call nnn) ((s.pushPc room).setPc (zext16 nnn))
  | ret (k : Fin 16) (depth : s.sp.toNat = k.val + 1) :
      Effect s .ret ((s.setSp (s.sp - 1)).setPc (s.readStk k + 2))

/-- Every instruction that answers a next state has one of the effects. -/
theorem exec_effect {i : Instr} {s t : State} (h : exec i s = .next t) : Effect s i t := by
  cases i with
  | cls => obtain rfl := Host.Outcome.next.inj h; exact .clear
  | ret => obtain ⟨k, hk, rfl⟩ := execRet_next.1 h; exact .ret k hk
  | jp nnn => obtain rfl := Host.Outcome.next.inj h; exact .jump nnn
  | call nnn => obtain ⟨room, rfl⟩ := execCall_next.1 h; exact .call nnn room
  | seImm | sneImm | seReg | sneReg => obtain rfl := Host.Outcome.next.inj h; exact .skip _ _
  | ldImm | addImm | ldReg | orReg | andReg | xorReg | addReg | subReg | shr | subnReg | shl =>
    obtain rfl := Host.Outcome.next.inj h; exact .registers _ _
  | ldI nnn => obtain rfl := Host.Outcome.next.inj h; exact .loadI nnn _
  | rnd x kk => obtain rfl := Host.Outcome.next.inj h; exact .random x kk _
  | drw x y n => obtain ⟨-, rfl⟩ := execDrw_next.1 h; exact .draw x y n
  | addI x => obtain rfl := Host.Outcome.next.inj h; exact .addToI x _
  | ldB x => obtain ⟨fits, rfl⟩ := execLdB_next.1 h; exact .storeDigits x _ fits
  | storeRegs x =>
    obtain ⟨fits, rfl⟩ := execStoreRegs_next.1 h
    exact .storeRange x _ (by rwa [State.rangeBytes_length])
  | loadRegs x =>
    obtain ⟨-, rfl⟩ := execLoadRegs_next.1 h
    obtain ⟨v, hv⟩ := s.loadRange_eq x
    rw [hv]; exact .registers _ v

/-- No instruction writes a timer (10_state.md R38). -/
theorem Effect.timers {s t : State} {i : Instr} (e : Effect s i t) : KeepsTimers s t := by
  cases e <;> exact ⟨rfl, rfl⟩

/-- Memory stays in canonical form: every store lies inside memory (20_memory.md R53). -/
theorem Effect.mem_wf {s t : State} {i : Instr} (e : Effect s i t) (h : s.mem.wf = true) : t.mem.wf = true := by
  cases e with
  | storeDigits x bs fits | storeRange x bs fits => exact Memory.storeBytes_wf bs (fun _ => fits) h
  | _ => exact h

/-- How an instruction that completes moves the pc and the call stack (40_control_flow.md). -/
inductive Transfer (s t : State) : Instr → Prop where
  /-- On to the next instruction, or past it by a skip. -/
  | sequential (i : Instr) (pc : t.pc = s.pc + 2 ∨ t.pc = s.pc + 4) (stack : KeepsStack s t) : Transfer s t i
  | jump (nnn : Addr12) (pc : t.pc = zext16 nnn) (stack : KeepsStack s t) : Transfer s t (.jp nnn)
  | call (nnn : Addr12) (room : s.sp.toNat < 16) (pc : t.pc = zext16 nnn) (sp : t.sp.toNat = s.sp.toNat + 1)
      (stk : ∀ j : Fin 16, t.readStk j = if j.val = s.sp.toNat then s.pc else s.readStk j) : Transfer s t (.call nnn)
  | ret (k : Fin 16) (depth : s.sp.toNat = k.val + 1) (pc : t.pc = s.readStk k + 2) (sp : t.sp.toNat = k.val)
      (stk : ∀ j, t.readStk j = s.readStk j) : Transfer s t .ret

theorem Effect.transfer {s t : State} {i : Instr} (e : Effect s i t) : Transfer s t i := by
  cases e with
  | jump nnn => exact .jump nnn rfl ⟨rfl, fun _ => rfl⟩
  | call nnn room =>
    refine .call nnn room rfl ?_ (by simp)
    simp only [State.setPc_sp, State.pushPc_sp]; bv_omega
  | ret k depth =>
    refine .ret k depth rfl ?_ (by simp)
    simp only [State.setPc_sp, State.setSp_sp]; bv_omega
  | skip i c => exact .sequential i (by cases c <;> simp) ⟨rfl, fun _ => rfl⟩
  | _ => exact .sequential _ (.inl rfl) ⟨rfl, fun _ => rfl⟩

end Sys2Proof.Machine
end

section
/-! The invariant of the machine: every step and every host operation keeps it (10_state.md R26, R37, R38). -/

namespace Sys2Proof.Machine

theorem Transfer.sp_le {s t : State} {i : Instr} (e : Transfer s t i) (h : s.sp.toNat ≤ 16) : t.sp.toNat ≤ 16 := by
  cases e with
  | sequential _ _ stack | jump _ _ stack => rwa [stack.1]
  | call _ room _ sp _ => omega
  | ret k depth _ sp _ => omega

/-- From a pc that could be fetched from, the next pc is at most 0x1002: a skip at 0xFFE reaches it (R26). -/
theorem Transfer.pc_le {s t : State} {i : Instr} (e : Transfer s t i) (hpc : s.pc.toNat + 1 ≤ 4095)
    (hstk : ∀ k, (s.readStk k).toNat ≤ 0xFFE) : t.pc.toNat ≤ 0x1002 := by
  cases e with
  | sequential _ pc _ => rcases pc with pc | pc <;> rw [pc] <;> bv_omega
  | jump nnn pc _ | call nnn _ pc _ _ => rw [pc, zext16_toNat]; omega
  | ret k _ pc _ _ => have := hstk k; rw [pc]; bv_omega

/-- Only a pc that could be fetched from is pushed, so every slot stays at most 0xFFE (40_control_flow.md R100). -/
theorem Transfer.stk_le {s t : State} {i : Instr} (e : Transfer s t i) (hpc : s.pc.toNat + 1 ≤ 4095)
    (hstk : ∀ k, (s.readStk k).toNat ≤ 0xFFE) (j : Fin 16) : (t.readStk j).toNat ≤ 0xFFE := by
  cases e with
  | sequential _ _ stack | jump _ _ stack => rw [stack.2]; exact hstk j
  | call _ _ _ _ stk => rw [stk]; split; exacts [by omega, hstk j]
  | ret _ _ _ _ stk => rw [stk]; exact hstk j

/-- Settles O50: a step runs one fetched instruction, and its effect keeps each part of the invariant. -/
theorem stepKeepsInvariant : Obligations.StepKeepsInvariant := by
  intro s t h hstep
  obtain ⟨i, hfetch, hexec⟩ := step_next_iff.1 hstep
  obtain ⟨hpc, -⟩ := fetchInstr_ok_iff.1 hfetch
  have e := exec_effect hexec
  obtain ⟨hdt, hst⟩ := e.timers
  exact {
    mem := e.mem_wf h.mem
    sp := e.transfer.sp_le h.sp
    pc := e.transfer.pc_le hpc h.stk
    stk := e.transfer.stk_le hpc h.stk
    dt := hdt.trans h.dt
    st := hst.trans h.st }

theorem inv_powerOn : Inv State.powerOn where
  mem := rfl
  sp := by decide
  pc := by decide
  stk := by decide
  dt := rfl
  st := rfl

/-- A load of an image that fits leaves the invariant, whatever was there before (70_reset_and_hazards.md R191). -/
theorem inv_loaded (s : State) {img : List Byte} (fits : img.length ≤ Config.progMax) : Inv (s.loaded img) where
  mem := Memory.ofImage_wf fun _ => by simp only [Config.memSize, Config.progMax, Config.progBase] at *; omega
  sp := by simp
  pc := by simp
  stk := by simp
  dt := rfl
  st := rfl

/-- Settles O51: reset is the state after a load of an empty image. -/
theorem invariantHoldsAtReset : Obligations.InvariantHoldsAtReset :=
  ⟨inv_loaded State.powerOn (img := []) (by decide), inv_powerOn⟩

/-- With both timers 0 the tick is no change (60_exceptions.md R173). -/
theorem tickTimers_of_zero {s : State} (hdt : s.dt = 0) (hst : s.st = 0) : tickTimers s = s := by
  cases s; simp_all [tickTimers, tickTimer, State.setTimers]

/-- A step or load that delivers a state keeps the invariant if its next state has it; a fault leaves the old state. -/
theorem deliver_keeps_inv {s : State} (h : Inv s) {o : Host.Outcome State Fault Refusal}
    (ho : ∀ t, o = .next t → Inv t) : Inv (deliver s o).1 := by
  cases o with
  | next t => exact ho t rfl
  | fault | refused => exact h

/-- Every host operation keeps the invariant. -/
theorem hostOp_keeps_inv (o : HostOp) {s : State} (h : Inv s) : Inv (hostOp o s).1 := by
  cases o with
  | load img =>
    refine deliver_keeps_inv h fun t ht => ?_
    unfold load raise at ht
    split at ht
    · next fits => obtain rfl := Host.Outcome.next.inj ht; exact inv_loaded s fits
    · cases ht
  | step => exact deliver_keeps_inv h fun t => stepKeepsInvariant s t h
  | tickTimers => rwa [hostOp, tickTimers_of_zero h.dt h.st]
  | isDirty => exact { mem := h.mem, sp := h.sp, pc := h.pc, stk := h.stk, dt := h.dt, st := h.st }
  | readPixel | inspect => exact h

/-- The invariant holds in every reachable state. -/
theorem Reachable.inv {s : State} (h : Reachable s) : Inv s := by
  induction h with
  | powerOn => exact inv_powerOn
  | op o _ ih => exact hostOp_keeps_inv o ih

/-- A canonical memory lists no address outside memory. -/
theorem Memory.read_outside {m : Memory} : ∀ {lo a : Nat}, Memory.wfFrom lo m = true → Config.memSize ≤ a →
    m.read a = unlistedByte := by
  induction m with
  | nil => intro lo a _ _; rfl
  | cons c rest ih =>
    intro lo a h ha
    obtain ⟨k, b⟩ := c
    simp only [Memory.wfFrom, Bool.and_eq_true, decide_eq_true_eq] at h
    obtain ⟨⟨⟨-, hk⟩, -⟩, hrest⟩ := h
    rw [Memory.read, if_neg (by omega), ih hrest ha]

/-- Settles O54: the invariant's bounds, in every reachable state. -/
theorem reachablePcAndMemoryBounded : Obligations.ReachablePcAndMemoryBounded := fun _ h =>
  ⟨h.inv.pc, h.inv.stk, h.inv.mem, fun _ ha => Memory.read_outside h.inv.mem ha⟩

/-- Settles O53: the invariant holds both timers at 0, and the tick has nothing to lower. -/
theorem reachableTimersAreZero : Obligations.ReachableTimersAreZero := fun _ h =>
  ⟨h.inv.dt, h.inv.st, by rw [hostOp, tickTimers_of_zero h.inv.dt h.inv.st]⟩

theorem Transfer.call_of_sp_lt {s t : State} {i : Instr} (e : Transfer s t i) (h : s.sp.toNat < t.sp.toNat) :
    (∃ nnn, i = .call nnn) ∧ t.sp.toNat = s.sp.toNat + 1 := by
  cases e with
  | call nnn _ _ sp _ => exact ⟨⟨nnn, rfl⟩, sp⟩
  | sequential _ _ stack | jump _ _ stack => rw [stack.1] at h; omega
  | ret => omega

theorem Transfer.ret_of_sp_lt {s t : State} {i : Instr} (e : Transfer s t i) (h : t.sp.toNat < s.sp.toNat) :
    i = .ret ∧ s.sp.toNat = t.sp.toNat + 1 := by
  cases e with
  | ret k depth _ sp _ => exact ⟨rfl, by omega⟩
  | sequential _ _ stack | jump _ _ stack => rw [stack.1] at h; omega
  | call => omega

/-- Settles O52: the bound is the invariant's; the two writers of SP and their faults are those of the transfer. -/
theorem reachableStackPointerBounded : Obligations.ReachableStackPointerBounded := by
  refine ⟨fun s h => h.inv.sp, fun s h hfault => ?_, fun i s t hexec => ?_, fun s nnn hsp => ?_, fun s hsp => ?_⟩
  · have := h.inv.sp
    rcases execRet_fault.1 hfault with ⟨-, h⟩ | ⟨hsp, -⟩
    · cases h
    · omega
  · have e := (exec_effect hexec).transfer
    exact ⟨e.call_of_sp_lt, e.ret_of_sp_lt⟩
  · exact execCall_fault.2 ⟨hsp.ge, rfl⟩
  · exact execRet_fault.2 (.inl ⟨hsp, rfl⟩)

/-- Where the pc convention lets control go: even, and at or above the entry point (10_state.md R26). -/
def EvenFromBase (w : Word) : Prop := w.toNat % 2 = 0 ∧ 0x200 ≤ w.toNat

theorem pcConvention_iff {s : State} :
    PcConvention s ↔ EvenFromBase s.pc ∧ ∀ k : Fin 16, k.val < s.sp.toNat → EvenFromBase (s.readStk k) := by
  simp only [PcConvention, EvenFromBase, and_assoc]

/-- Two or four bytes further on, without wrapping, the convention still holds. -/
theorem EvenFromBase.add {w : Word} (h : EvenFromBase w) (hw : w.toNat ≤ 0xFFE) :
    EvenFromBase (w + 2) ∧ EvenFromBase (w + 4) := by
  obtain ⟨heven, hbase⟩ := h
  have h2 : (w + 2).toNat = w.toNat + 2 := by bv_omega
  have h4 : (w + 4).toNat = w.toNat + 4 := by bv_omega
  simp only [EvenFromBase, h2, h4]; omega

theorem evenFromBase_zext16 {nnn : Addr12} (h : targetWf nnn = true) : EvenFromBase (zext16 nnn) := by
  simpa [EvenFromBase, targetWf] using h

/-- A transfer by a well-formed instruction keeps the convention: targets have it by well-formedness, the pushed
address because it is the pc, the popped one because its slot is below SP. -/
theorem Transfer.keeps_pcConvention {s t : State} {i : Instr} (e : Transfer s t i) (hwf : i.wf = true)
    (hpc : s.pc.toNat ≤ 0xFFE) (hstk : ∀ k, (s.readStk k).toNat ≤ 0xFFE) (h : PcConvention s) : PcConvention t := by
  rw [pcConvention_iff] at h ⊢
  obtain ⟨hp, hs⟩ := h
  cases e with
  | sequential _ pc stack =>
    obtain ⟨h2, h4⟩ := hp.add hpc
    simp only [stack.1, stack.2]
    exact ⟨by rcases pc with pc | pc <;> rwa [pc], hs⟩
  | jump nnn pc stack =>
    simp only [stack.1, stack.2, pc]
    exact ⟨evenFromBase_zext16 hwf, hs⟩
  | call nnn _ pc sp stk =>
    refine ⟨pc ▸ evenFromBase_zext16 hwf, fun k hk => ?_⟩
    rw [stk]
    split
    · exact hp
    · exact hs k (by omega)
  | ret k depth pc sp stk =>
    refine ⟨pc ▸ ((hs k (by omega)).add (hstk k)).1, fun j hj => ?_⟩
    rw [stk]; exact hs j (by omega)

/-- Settles O55: the step's transfer keeps the convention, under the bounds of the invariant and the fetch. -/
theorem wellFormedProgramsKeepPcConvention : Obligations.WellFormedProgramsKeepPcConvention := by
  intro s t i hinv hconv hfetch hwf hstep
  rw [step_of_fetch hfetch] at hstep
  have hpc := (fetchInstr_ok_iff.1 hfetch).1
  exact (exec_effect hstep).transfer.keeps_pcConvention hwf (by omega) hinv.stk hconv

end Sys2Proof.Machine
end

section
/-! Which instruction writes and reads what (10_state.md R22 to R31). -/

namespace Sys2Proof.Machine

/-! ## Written registers -/

/-- An instruction writes no general register outside the `w` entries of the table of R23. -/
theorem exec_keepsV {i : Instr} {s t : State} (h : exec i s = .next t) : KeepsV (writesV i) s t := by
  intro r hr
  cases i with
  | cls | jp | seImm | sneImm | seReg | sneReg | ldI | addI => obtain rfl := Host.Outcome.next.inj h; rfl
  | ldImm | addImm | ldReg | orReg | andReg | xorReg | rnd =>
    obtain rfl := Host.Outcome.next.inj h
    simp_all [writesV, rndWith]
  | addReg | subReg | shr | subnReg | shl =>
    obtain rfl := Host.Outcome.next.inj h
    simp_all [writesV, State.readV_writeResultFlag]
  | ret => obtain ⟨k, -, rfl⟩ := execRet_next.1 h; rfl
  | call => obtain ⟨room, rfl⟩ := execCall_next.1 h; rfl
  | drw => obtain ⟨-, rfl⟩ := execDrw_next.1 h; simp_all [writesV]
  | ldB => obtain ⟨-, rfl⟩ := execLdB_next.1 h; rfl
  | storeRegs => obtain ⟨-, rfl⟩ := execStoreRegs_next.1 h; rfl
  | loadRegs => obtain ⟨-, rfl⟩ := execLoadRegs_next.1 h; simp_all [writesV, mem_regsUpTo]

/-- A flag-writing instruction leaves a flag in VF (R22). -/
theorem exec_flag {i : Instr} {s t : State} (h : exec i s = .next t) (hw : writesFlag i = true) :
    ∃ f, t.readV Reg.vf = flagByte f := by
  cases i with
  | addReg | subReg | shr | subnReg | shl =>
    obtain rfl := Host.Outcome.next.inj h
    exact ⟨_, by rw [State.readV_writeResultFlag, if_pos rfl]⟩
  | drw => obtain ⟨-, rfl⟩ := execDrw_next.1 h; exact ⟨_, by rw [State.readV_drawn, if_pos rfl]⟩
  | _ => cases hw

theorem flagByte_eq_zero_or_one (f : Bool) : flagByte f = 0 ∨ flagByte f = 1 := by
  cases f
  · exact .inl rfl
  · exact .inr rfl

/-! ## Writers of the other components -/

namespace Effect
variable {s t : State} {i : Instr}

theorem writes_i (e : Effect s i t) (h : t.i ≠ s.i) : (∃ nnn, i = .ldI nnn) ∨ ∃ x, i = .addI x := by
  cases e with
  | loadI nnn => exact .inl ⟨nnn, rfl⟩
  | addToI x => exact .inr ⟨x, rfl⟩
  | _ => exact absurd rfl h

theorem writes_sp (e : Effect s i t) (h : t.sp ≠ s.sp) : i = .ret ∨ ∃ nnn, i = .call nnn := by
  cases e with
  | ret => exact .inl rfl
  | call nnn => exact .inr ⟨nnn, rfl⟩
  | _ => exact absurd rfl h

theorem writes_stk (e : Effect s i t) (h : t.stk ≠ s.stk) : ∃ nnn, i = .call nnn := by
  cases e with
  | call nnn => exact ⟨nnn, rfl⟩
  | _ => exact absurd rfl h

theorem writes_mem (e : Effect s i t) (h : t.mem ≠ s.mem) : (∃ x, i = .ldB x) ∨ ∃ x, i = .storeRegs x := by
  cases e with
  | storeDigits x => exact .inl ⟨x, rfl⟩
  | storeRange x => exact .inr ⟨x, rfl⟩
  | _ => exact absurd rfl h

theorem writes_display (e : Effect s i t) (h : t.fb ≠ s.fb ∨ t.dp ≠ s.dp) : i = .cls ∨ ∃ x y n, i = .drw x y n := by
  cases e with
  | clear => exact .inl rfl
  | draw x y n => exact .inr ⟨x, y, n, rfl⟩
  | _ => exact h.elim (absurd rfl) (absurd rfl)

theorem writes_draws (e : Effect s i t) (h : t.draws ≠ s.draws) : ∃ x kk, i = .rnd x kk := by
  cases e with
  | random x kk => exact ⟨x, kk, rfl⟩
  | _ => exact absurd rfl h

end Effect

/-- CLS and DRW set `DP` (10_state.md R31). -/
theorem exec_display_dp {i : Instr} {s t : State} (h : exec i s = .next t)
    (hi : i = .cls ∨ ∃ x y n, i = .drw x y n) : t.dp = true := by
  rcases hi with rfl | ⟨x, y, n, rfl⟩
  · obtain rfl := Host.Outcome.next.inj h; rfl
  · obtain ⟨-, rfl⟩ := execDrw_next.1 h; rfl

/-- Settles O56: each component's writers, read off the effect; VF is a register the table of R23 lists. -/
theorem componentsHaveFewWriters : Obligations.ComponentsHaveFewWriters := by
  intro i s t h
  have e := exec_effect h
  refine ⟨e.writes_i, e.writes_sp, e.writes_stk, e.timers, e.writes_mem, e.writes_display, exec_display_dp h,
    fun hw => ?_, fun hne => .inr ?_, e.writes_draws⟩
  · obtain ⟨f, hf⟩ := exec_flag h hw
    exact hf ▸ flagByte_eq_zero_or_one f
  · by_contra hvf
    exact hne (exec_keepsV h _ hvf)

/-! ## Registers that are not read -/

/-- The next state changed by `f`; a fault or refusal stays as it is. -/
def mapNext (f : State → State) : Host.Outcome State Fault Refusal → Host.Outcome State Fault Refusal
  | .next t => .next (f t)
  | .fault r => .fault r
  | .refused r => .refused r

theorem mapNext_withRange (f : State → State) (a c : Nat) (t : State) :
    mapNext f (withRange a c (.next t)) = withRange a c (.next (f t)) := by
  unfold withRange; split <;> rfl

/-- Another value in register `r`, unless it is one of the registers `ws` that are written anyway. -/
def State.setVOutside (ws : List Reg) (r : Reg) (b : Byte) (t : State) : State :=
  t.setV r (if r ∈ ws then t.readV r else b)

section
variable (s : State) (r x y : Reg) (b c : Byte)

/-- Writing back what a register holds is no change. -/
theorem State.setV_readV : s.setV r (s.readV r) = s :=
  State.ext_readV (fun k => by simp +contextual) rfl rfl rfl rfl rfl rfl rfl rfl rfl rfl

theorem State.setVOutside_eq (ws : List Reg) : s.setVOutside ws r b = if r ∈ ws then s else s.setV r b := by
  unfold State.setVOutside; split
  · exact s.setV_readV r
  · rfl

theorem State.readV_setVOutside (ws : List Reg) (k : Reg) :
    (s.setVOutside ws r b).readV k = if k = r ∧ r ∉ ws then b else s.readV k := by
  unfold State.setVOutside; rw [State.readV_setV]; split_ifs <;> simp_all

@[simp] theorem State.setVOutside_nil : s.setVOutside [] r b = s.setV r b := rfl

/-! Each operation that writes registers, after another value was put in register `r`. -/

theorem State.setV_setV : (s.setV r b).setV x c = (s.setV x c).setVOutside [x] r b := by
  refine State.ext_readV (fun k => ?_) rfl rfl rfl rfl rfl rfl rfl rfl rfl rfl
  simp only [State.readV_setV, State.readV_setVOutside, List.mem_singleton]
  by_cases hx : k = x <;> by_cases hr : k = r <;> simp_all

theorem State.writeResultFlag_setV (f : Bool) :
    (s.setV r b).writeResultFlag x c f = (s.writeResultFlag x c f).setVOutside [x, Reg.vf] r b := by
  refine State.ext_readV (fun k => ?_) rfl rfl rfl rfl rfl rfl rfl rfl rfl rfl
  simp only [State.readV_writeResultFlag, State.readV_setV, State.readV_setVOutside]
  by_cases hf : k = Reg.vf <;> by_cases hx : k = x <;> by_cases hr : k = r <;> simp_all

theorem State.drawn_setV (n : Height) (hx : (s.setV r b).readV x = s.readV x)
    (hy : (s.setV r b).readV y = s.readV y) :
    (s.setV r b).drawn x y n = (s.drawn x y n).setVOutside [Reg.vf] r b := by
  have sprite : (s.setV r b).spriteBytes n = s.spriteBytes n := rfl
  refine State.ext_readV (fun k => ?_) rfl rfl rfl rfl rfl rfl rfl ?_ rfl rfl
  · simp only [State.readV_drawn, State.readV_setVOutside, State.readV_setV, State.setV_fb, hx, hy, sprite]
    by_cases hf : k = Reg.vf <;> by_cases hr : k = r <;> simp_all
  · simp only [State.setVOutside, State.setV_fb, State.drawn_fb, hx, hy, sprite]

theorem State.loadRange_setV :
    (s.setV r b).loadRange x = (s.loadRange x).setVOutside (regsUpTo x) r b := by
  apply State.ext_readV
  case hv =>
    intro k
    simp only [State.readV_loadRange, State.readV_setV, State.readV_setVOutside, mem_regsUpTo]
    by_cases hx : k ≤ x <;> by_cases hr : k = r <;> simp_all
  all_goals simp [State.setVOutside]

end

/-- A register outside the `r` entries of the table of R23 has no influence on an instruction: with another value in
it the outcome is the same, but for that register where it is not written. -/
theorem exec_setV {i : Instr} (s : State) {r : Reg} (b : Byte) (hr : r ∉ readsV i) :
    exec i (s.setV r b) = mapNext (State.setVOutside (writesV i) r b) (exec i s) := by
  have hread : ∀ k ∈ readsV i, (s.setV r b).readV k = s.readV k := fun k hk => by
    rw [State.readV_setV, if_neg (ne_of_mem_of_not_mem hk hr)]
  cases i with
  | cls | jp | ldI => rfl
  | ret => simp only [exec, execRet, apply_dite (mapNext _)]; rfl
  | call => simp only [exec, execCall, apply_dite (mapNext _)]; rfl
  | seImm x | sneImm x | addI x =>
    simp only [exec, execSeImm, execSneImm, execAddI, hread x (.head _)]; rfl
  | seReg x y | sneReg x y =>
    simp only [exec, execSeReg, execSneReg, hread x (.head _), hread y (.tail _ (.head _))]; rfl
  | ldImm | rnd => simp only [exec, execLdImm, execRnd, rndWith, State.setV_setV]; rfl
  | addImm x => simp only [exec, execAddImm, hread x (.head _), State.setV_setV]; rfl
  | ldReg x y => simp only [exec, execLdReg, hread y (.head _), State.setV_setV]; rfl
  | orReg x y | andReg x y | xorReg x y =>
    simp only [exec, execOrReg, execAndReg, execXorReg, hread x (.head _), hread y (.tail _ (.head _)),
      State.setV_setV]
    rfl
  | addReg x y | subReg x y | subnReg x y =>
    simp only [exec, execAddReg, execSubReg, execSubnReg, hread x (.head _), hread y (.tail _ (.head _)),
      State.writeResultFlag_setV]
    rfl
  | shr x | shl x =>
    simp only [exec, execShr, execShl, hread x (.head _), State.writeResultFlag_setV]; rfl
  | drw x y n =>
    simp only [exec, execDrw, State.base_setV, mapNext_withRange, writesV,
      State.drawn_setV s r x y b n (hread x (.head _)) (hread y (.tail _ (.head _)))]
  | ldB x =>
    simp only [exec, execLdB, State.base_setV, mapNext_withRange, hread x (.head _)]; rfl
  | storeRegs x =>
    have range : (s.setV r b).rangeBytes x = s.rangeBytes x := List.map_congr_left hread
    simp only [exec, execStoreRegs, State.base_setV, mapNext_withRange, range]; rfl
  | loadRegs x =>
    simp only [exec, execLoadRegs, State.base_setV, mapNext_withRange, State.loadRange_setV]; rfl

/-- Settles O57: the table of R23, its `w` entries and its `r` entries. -/
theorem registersReadAndWritten : Obligations.RegistersReadAndWritten := by
  refine fun i s => ⟨fun t => exec_keepsV, fun r b hr => ⟨fun f hf => ?_, fun t ht => ?_⟩⟩
  · rw [exec_setV s b hr, hf, mapNext]
  · rw [exec_setV s b hr, ht, mapNext, State.setVOutside_eq]

end Sys2Proof.Machine
end

section
/-! A range store is seen by the next fetch (20_memory.md R55, R60; 44_memory_ops.md R153). -/

namespace Sys2Proof.Machine

/-- After a range store, the byte at `I + k` is register `k` of the stored range (44_memory_ops.md R153). -/
theorem execStoreRegs_readByte {s t : State} {x : Reg} (h : execStoreRegs x s = .next t) {k : Reg} (hk : k.val ≤ x.val) :
    t.readByte (s.base + k.val) = s.readV k := by
  obtain ⟨-, rfl⟩ := execStoreRegs_next.1 h
  have inRange : s.base ≤ s.base + k.val ∧ s.base + k.val < s.base + (s.rangeBytes x).length := by
    rw [State.rangeBytes_length]; omega
  rw [State.readByte_advance, State.readByte_writeBytes, dif_pos inRange]
  simp only [Nat.add_sub_cancel_left, State.rangeBytes_getElem]

/-- Settles O58: the store fits, so the fetch lies in memory; its two bytes are the registers `k` and `k + 1`. -/
theorem storesAreSeenByTheNextFetch : Obligations.StoresAreSeenByTheNextFetch := by
  intro s t x k hk hexec hpc
  have fits := (execStoreRegs_next.1 hexec).1
  have high := execStoreRegs_readByte hexec (k := k) (by omega)
  have low := execStoreRegs_readByte hexec (k := ⟨k.val + 1, Nat.lt_of_le_of_lt hk x.isLt⟩) hk
  rw [fetchWord_ok (by omega), hpc, high, Nat.add_assoc, low]

end Sys2Proof.Machine
end

section
/-! Decoding and encoding (30_encoding.md R72 to R77, R86): a word that selects a row decodes to that row's instruction
with its operands read from the word's fields, and the canonical word of an instruction gives it back. -/

namespace Sys2Proof
open Sys2Proof.Machine

/-! ## The operands of a word -/

/-- The instruction of the same row with its operands read from the fields of `w` (30_encoding.md R72, R73). -/
def Instr.withOperandsOf : Instr → Word → Instr
  | .cls, _ => .cls
  | .ret, _ => .ret
  | .jp _, w => .jp (fieldNNN w)
  | .call _, w => .call (fieldNNN w)
  | .seImm _ _, w => .seImm (fieldX w) (fieldKK w)
  | .sneImm _ _, w => .sneImm (fieldX w) (fieldKK w)
  | .seReg _ _, w => .seReg (fieldX w) (fieldY w)
  | .ldImm _ _, w => .ldImm (fieldX w) (fieldKK w)
  | .addImm _ _, w => .addImm (fieldX w) (fieldKK w)
  | .ldReg _ _, w => .ldReg (fieldX w) (fieldY w)
  | .orReg _ _, w => .orReg (fieldX w) (fieldY w)
  | .andReg _ _, w => .andReg (fieldX w) (fieldY w)
  | .xorReg _ _, w => .xorReg (fieldX w) (fieldY w)
  | .addReg _ _, w => .addReg (fieldX w) (fieldY w)
  | .subReg _ _, w => .subReg (fieldX w) (fieldY w)
  | .shr _, w => .shr (fieldX w)
  | .subnReg _ _, w => .subnReg (fieldX w) (fieldY w)
  | .shl _, w => .shl (fieldX w)
  | .sneReg _ _, w => .sneReg (fieldX w) (fieldY w)
  | .ldI _, w => .ldI (fieldNNN w)
  | .rnd _ _, w => .rnd (fieldX w) (fieldKK w)
  | .drw _ _ _, w => .drw (fieldX w) (fieldY w) (fieldN w)
  | .addI _, w => .addI (fieldX w)
  | .ldB _, w => .ldB (fieldX w)
  | .storeRegs _, w => .storeRegs (fieldX w)
  | .loadRegs _, w => .loadRegs (fieldX w)

@[simp] theorem Instr.row_withOperandsOf (i : Instr) (w : Word) : (i.withOperandsOf w).row = i.row := by
  cases i <;> rfl

@[simp] theorem Instr.ignoredBits_withOperandsOf (i : Instr) (w : Word) :
    (i.withOperandsOf w).ignoredBits = i.ignoredBits := by
  cases i <;> rfl

/-! A field of an encoded word is the operand the encoder put there. -/

@[simp] theorem fieldNNN_encADDR (c : BitVec 4) (nnn : Addr12) : fieldNNN (encADDR c nnn) = nnn := by
  apply BitVec.eq_of_toNat_eq; rw [fieldNNN_toNat, encADDR_toNat]; omega

@[simp] theorem fieldX_encXKK (c : BitVec 4) (x : Reg) (kk : Byte) : fieldX (encXKK c x kk) = x := by
  apply Fin.ext; rw [fieldX_val, encXKK_toNat]; omega

@[simp] theorem fieldKK_encXKK (c : BitVec 4) (x : Reg) (kk : Byte) : fieldKK (encXKK c x kk) = kk := by
  apply BitVec.eq_of_toNat_eq; rw [fieldKK_toNat, encXKK_toNat]; omega

@[simp] theorem fieldX_encXF (x : Reg) (kk : Byte) : fieldX (encXF x kk) = x := fieldX_encXKK 0xF#4 x kk

@[simp] theorem fieldX_encXY (c : BitVec 4) (x y : Reg) (n : BitVec 4) : fieldX (encXY c x y n) = x := by
  apply Fin.ext; rw [fieldX_val, encXY_toNat]; omega

@[simp] theorem fieldY_encXY (c : BitVec 4) (x y : Reg) (n : BitVec 4) : fieldY (encXY c x y n) = y := by
  apply Fin.ext; rw [fieldY_val, encXY_toNat]; omega

@[simp] theorem fieldX_encXYN (x y : Reg) (n : Height) : fieldX (encXYN x y n) = x :=
  fieldX_encXY 0xD#4 x y (nibble n)

@[simp] theorem fieldY_encXYN (x y : Reg) (n : Height) : fieldY (encXYN x y n) = y :=
  fieldY_encXY 0xD#4 x y (nibble n)

@[simp] theorem fieldN_encXYN (x y : Reg) (n : Height) : fieldN (encXYN x y n) = n := by
  apply Fin.ext; rw [fieldN_val, encXYN_toNat]; omega

/-- The operands of an instruction's canonical word are its own. -/
theorem Instr.withOperandsOf_encode (i : Instr) : i.withOperandsOf (encode i) = i := by
  cases i <;> simp [withOperandsOf, encode]

/-! ## From the row to the instruction (R76, R77) -/

section Selected
variable {w p : Word}

theorem class_of_and_F000 (h : w &&& 0xF000 = p) : w.toNat / 4096 = p.toNat / 4096 := by
  rw [← h, and_F000_toNat]; omega

theorem class_low_of_and_F0FF (h : w &&& 0xF0FF = p) :
    w.toNat / 4096 = p.toNat / 4096 ∧ w.toNat % 256 = p.toNat % 256 := by
  rw [← h, and_F0FF_toNat]; omega

theorem class_nibble_of_and_F00F (h : w &&& 0xF00F = p) :
    w.toNat / 4096 = p.toNat / 4096 ∧ w.toNat % 16 = p.toNat % 16 := by
  rw [← h, and_F00F_toNat]; omega

end Selected

/-- A word that selects an instruction's row decodes to the instruction of that row with the word's operands: the
encoding part of every instruction's statement. -/
theorem decodesAs_row (i : Instr) : DecodesAs i.row.mask i.row.pat i.withOperandsOf := by
  intro w h
  cases i with
  | jp | call | seImm | sneImm | seReg | ldImm | addImm | sneReg | ldI | rnd | drw =>
    have hc := class_of_and_F000 h
    simp [decode, hc, Instr.row, Instr.withOperandsOf]
  | cls | ret =>
    obtain ⟨hc, hk⟩ := class_low_of_and_F0FF h
    simp [decode, decodeSystem, hc, hk, Instr.row, Instr.withOperandsOf]
  | addI | ldB | storeRegs | loadRegs =>
    obtain ⟨hc, hk⟩ := class_low_of_and_F0FF h
    simp [decode, decodeMemory, hc, hk, Instr.row, Instr.withOperandsOf]
  | ldReg | orReg | andReg | xorReg | addReg | subReg | shr | subnReg | shl =>
    obtain ⟨hc, hn⟩ := class_nibble_of_and_F00F h
    simp [decode, decodeArithmetic, hc, hn, Instr.row, Instr.withOperandsOf]

/-- The family MatchesRow, for every instruction. -/
theorem matchesRow (i : Instr) : Laws.MatchesRow.Statement i := by
  cases i with
  | cls => exact Laws.MatchesRow.cls
  | ret => exact Laws.MatchesRow.ret
  | jp => exact Laws.MatchesRow.jp _
  | call => exact Laws.MatchesRow.call _
  | seImm => exact Laws.MatchesRow.seImm _ _
  | sneImm => exact Laws.MatchesRow.sneImm _ _
  | seReg => exact Laws.MatchesRow.seReg _ _
  | ldImm => exact Laws.MatchesRow.ldImm _ _
  | addImm => exact Laws.MatchesRow.addImm _ _
  | ldReg => exact Laws.MatchesRow.ldReg _ _
  | orReg => exact Laws.MatchesRow.orReg _ _
  | andReg => exact Laws.MatchesRow.andReg _ _
  | xorReg => exact Laws.MatchesRow.xorReg _ _
  | addReg => exact Laws.MatchesRow.addReg _ _
  | subReg => exact Laws.MatchesRow.subReg _ _
  | shr => exact Laws.MatchesRow.shr _
  | subnReg => exact Laws.MatchesRow.subnReg _ _
  | shl => exact Laws.MatchesRow.shl _
  | sneReg => exact Laws.MatchesRow.sneReg _ _
  | ldI => exact Laws.MatchesRow.ldI _
  | rnd => exact Laws.MatchesRow.rnd _ _
  | drw => exact Laws.MatchesRow.drw _ _ _
  | addI => exact Laws.MatchesRow.addI _
  | ldB => exact Laws.MatchesRow.ldB _
  | storeRegs => exact Laws.MatchesRow.storeRegs _
  | loadRegs => exact Laws.MatchesRow.loadRegs _

theorem encode_selects_row (i : Instr) : encode i &&& i.row.mask = i.row.pat :=
  beq_iff_eq.1 (matchesRow i).1

/-- Settles O1: the canonical word selects its instruction's row, and its fields are the instruction's operands. -/
theorem decodeInvertsEncode : Obligations.DecodeInvertsEncode := fun i => by
  rw [decodesAs_row i _ (encode_selects_row i), i.withOperandsOf_encode]

theorem encode_injective {i j : Instr} (h : encode i = encode j) : i = j :=
  Except.ok.inj (by rw [← decodeInvertsEncode i, ← decodeInvertsEncode j, h])

/-! ## From the instruction back to the word (R75, R86) -/

/-- To be the canonical word up to ignored bits is an equation between numbers. -/
theorem canonical_of_toNat {w : Word} {i : Instr} (h : w.toNat = (encode i).toNat + (w &&& i.ignoredBits).toNat) :
    w &&& ~~~i.ignoredBits = encode i := by
  rw [word_eq_iff, and_not_toNat]; omega

/-! Every branch of the decoder fixes what the encoder writes as constants and reads every field it does not ignore, so
class, fields and ignored bits add up to the word. -/

theorem decodeSystem_canonical {w : Word} {i : Instr} (hc : w.toNat / 4096 = 0) (h : decodeSystem w = .ok i) :
    w &&& ~~~i.ignoredBits = encode i := by
  simp only [decodeSystem, fieldKK_toNat] at h
  split at h
  case h_3 => cases h
  all_goals
    obtain rfl := Except.ok.inj h
    apply canonical_of_toNat
    simp only [Instr.ignoredBits, encode, and_0F00_toNat, encSYS_toNat, BitVec.reduceToNat]; omega

theorem decodeArithmetic_canonical {w : Word} {i : Instr} (hc : w.toNat / 4096 = 8) (h : decodeArithmetic w = .ok i) :
    w &&& ~~~i.ignoredBits = encode i := by
  simp only [decodeArithmetic, fieldN_val] at h
  split at h
  case h_10 => cases h
  all_goals
    obtain rfl := Except.ok.inj h
    apply canonical_of_toNat
    simp only [Instr.ignoredBits, encode, and_zero_toNat, and_00F0_toNat, encXY_toNat, fieldX_val, fieldY_val,
      BitVec.reduceToNat, Fin.val_zero]
    omega

theorem decodeMemory_canonical {w : Word} {i : Instr} (hc : w.toNat / 4096 = 15) (h : decodeMemory w = .ok i) :
    w &&& ~~~i.ignoredBits = encode i := by
  simp only [decodeMemory, fieldKK_toNat] at h
  split at h
  case h_5 => cases h
  all_goals
    obtain rfl := Except.ok.inj h
    apply canonical_of_toNat
    simp only [Instr.ignoredBits, encode, and_zero_toNat, encXF_toNat, fieldX_val, BitVec.reduceToNat]; omega

/-- A word that decodes to `i` is the canonical word of `i` up to the ignored bits. -/
theorem decode_canonical {w : Word} {i : Instr} (h : decode w = .ok i) : w &&& ~~~i.ignoredBits = encode i := by
  simp only [decode, fieldC_toNat] at h
  split at h
  case h_1 hc => exact decodeSystem_canonical hc h
  case h_9 hc => exact decodeArithmetic_canonical hc h
  case h_14 hc => exact decodeMemory_canonical hc h
  case h_15 => cases h
  all_goals
    obtain rfl := Except.ok.inj h
    apply canonical_of_toNat
    simp only [Instr.ignoredBits, encode, and_zero_toNat, and_000F_toNat, encADDR_toNat, encXKK_toNat, encXY_toNat,
      encXYN_toNat, fieldX_val, fieldY_val, fieldN_val, fieldKK_toNat, fieldNNN_toNat, BitVec.reduceToNat]
    omega

/-- No ignored bit takes part in selecting the row. -/
theorem mask_avoids_ignoredBits (i : Instr) : ~~~i.ignoredBits &&& i.row.mask = i.row.mask := by
  cases i <;> simp only [Instr.ignoredBits, Instr.row] <;> decide

theorem selects_of_canonical {w : Word} {i : Instr} (h : w &&& ~~~i.ignoredBits = encode i) :
    w &&& i.row.mask = i.row.pat := by
  rw [← mask_avoids_ignoredBits, ← BitVec.and_assoc, h, encode_selects_row]

theorem decode_selects {w : Word} {i : Instr} (h : decode w = .ok i) : w &&& i.row.mask = i.row.pat :=
  selects_of_canonical (decode_canonical h)

/-- Settles O2: up to ignored bits the word selects the row of `i`, so it decodes to an instruction of that row; that
one has the same ignored bits, hence the same canonical word, and is `i`. -/
theorem decodeSeesAllButIgnoredBits : Obligations.DecodeSeesAllButIgnoredBits := by
  refine fun w i => ⟨decode_canonical, fun h => ?_⟩
  have hdec : decode w = .ok (i.withOperandsOf w) := decodesAs_row i w (selects_of_canonical h)
  have hword := decode_canonical hdec
  rw [Instr.ignoredBits_withOperandsOf, h] at hword
  rw [hdec, ← encode_injective hword]

/-! ## The opcode map (R76) -/

/-- The rows of the table are those of the instructions. -/
theorem mem_opcodeTable {r : OpRow} : r ∈ opcodeTable ↔ ∃ i : Instr, i.row = r := by
  constructor
  · revert r
    simp [opcodeTable]
  · rintro ⟨i, rfl⟩; cases i <;> simp [opcodeTable, Instr.row]

/-- A word selects a row of the table exactly when it decodes to an instruction of that row. -/
theorem selects_iff_decode {r : OpRow} (hr : r ∈ opcodeTable) (w : Word) :
    w &&& r.mask = r.pat ↔ ∃ i, decode w = .ok i ∧ i.row = r := by
  obtain ⟨i, rfl⟩ := mem_opcodeTable.1 hr
  constructor
  · exact fun h => ⟨_, decodesAs_row i w h, i.row_withOperandsOf w⟩
  · rintro ⟨j, hj, hrow⟩
    rw [← hrow]
    exact decode_selects hj

/-- Settles O3: two rows that one word selects are both the row of the instruction it decodes to. -/
theorem opcodeMapSelectsRows : Obligations.OpcodeMapSelectsRows := by
  refine ⟨rfl, fun w r hr => selects_iff_decode hr w, fun i => mem_opcodeTable.2 ⟨i, rfl⟩, ?_⟩
  intro w r r' hr hr' h h'
  obtain ⟨i, hi, rfl⟩ := (selects_iff_decode hr w).1 h
  obtain ⟨j, hj, rfl⟩ := (selects_iff_decode hr' w).1 h'
  rw [Except.ok.inj (hi.symm.trans hj)]

end Sys2Proof
end

section
/-! The illegal words: which they are, how many, and the fault of fetching one (30_encoding.md R80,
60_exceptions.md R161). -/

namespace Sys2Proof
open Sys2Proof.Machine

/-- The class nibble and low byte of the illegal words of R80. -/
abbrev IllegalAt (c kk : Nat) : Prop :=
  (c = 0x0 ∧ kk ≠ 0xE0 ∧ kk ≠ 0xEE) ∨ (c = 0x8 ∧ kk % 16 ∈ [0x8, 0x9, 0xA, 0xB, 0xC, 0xD, 0xF]) ∨
    c = 0xB ∨ c = 0xE ∨ (c = 0xF ∧ kk ∉ [0x1E, 0x33, 0x55, 0x65])

theorem decodeSystem_illegal_iff {w : Word} :
    decodeSystem w = .error (.illegalWord w) ↔ w.toNat % 256 ≠ 0xE0 ∧ w.toNat % 256 ≠ 0xEE := by
  simp only [decodeSystem, fieldKK_toNat]
  split <;> simp_all

theorem decodeArithmetic_illegal_iff {w : Word} :
    decodeArithmetic w = .error (.illegalWord w) ↔ w.toNat % 16 ∈ [0x8, 0x9, 0xA, 0xB, 0xC, 0xD, 0xF] := by
  simp only [decodeArithmetic, fieldN_val]
  split <;> simp_all; omega

theorem decodeMemory_illegal_iff {w : Word} :
    decodeMemory w = .error (.illegalWord w) ↔ w.toNat % 256 ∉ [0x1E, 0x33, 0x55, 0x65] := by
  simp only [decodeMemory, fieldKK_toNat]
  split <;> simp_all

/-- Class and low byte of a word decide whether it is illegal. -/
theorem decode_illegal_iff {w : Word} :
    decode w = .error (.illegalWord w) ↔ IllegalAt (w.toNat / 4096) (w.toNat % 256) := by
  have class_lt : w.toNat / 4096 < 16 := by omega
  interval_cases hc : w.toNat / 4096 <;>
    simp [IllegalAt, decode, hc, decodeSystem_illegal_iff, decodeArithmetic_illegal_iff, decodeMemory_illegal_iff]

/-! ## Counting them -/

/-- How many of the 64 low bytes from `q * 64` up are those of illegal words of class `c`. -/
def illegalIn (c q : Nat) : Nat := (List.range 64).countP fun lo => IllegalAt c (q * 64 + lo)

/-- Every 64 words of the model's count have the 64 low bytes of one quarter: only the quarter matters. -/
theorem illegalCount_eq_sum {c : Nat} (hc : c < 16) :
    illegalCount c = ((List.range 64).map fun hi => illegalIn c (hi % 4)).sum := by
  unfold illegalCount
  congr 1
  refine List.map_congr_left fun hi hhi => List.countP_congr fun lo hlo => ?_
  rw [List.mem_range] at hhi hlo
  have hword : (BitVec.ofNat 16 (c * 4096 + hi * 64 + lo)).toNat = c * 4096 + hi * 64 + lo := by
    rw [BitVec.toNat_ofNat]; omega
  have hillegal := decode_illegal_iff (w := BitVec.ofNat 16 (c * 4096 + hi * 64 + lo))
  rw [hword, show (c * 4096 + hi * 64 + lo) / 4096 = c by omega,
    show (c * 4096 + hi * 64 + lo) % 256 = hi % 4 * 64 + lo by omega] at hillegal
  rw [decide_eq_true_iff, ← hillegal]
  split
  next h => simp [h]
  next h => simp [h, decode_error h]

/-- A sum of `n` periods of length four. -/
theorem sum_map_mod_four (f : Nat → Nat) (n : Nat) :
    ((List.range (4 * n)).map fun k => f (k % 4)).sum = n * (f 0 + f 1 + f 2 + f 3) := by
  induction n with
  | zero => simp
  | succ n ih =>
    rw [Nat.mul_succ, List.range_add, List.map_append, List.sum_append, ih]
    simp [List.range_succ]
    ring

/-- Each low byte occurs in 16 words of the class, one for each value of the field `x` (R72). -/
theorem illegalCount_eq {c : Nat} (hc : c < 16) :
    illegalCount c = 16 * (illegalIn c 0 + illegalIn c 1 + illegalIn c 2 + illegalIn c 3) := by
  rw [illegalCount_eq_sum hc, ← sum_map_mod_four]

theorem illegalCount_legal_class {c : Nat} (hc : c ∈ [0x1, 0x2, 0x3, 0x4, 0x5, 0x6, 0x7, 0x9, 0xA, 0xC, 0xD]) :
    illegalCount c = 0 := by
  have none_illegal : ∀ kk, ¬ IllegalAt c kk := by
    rintro kk (⟨rfl, -⟩ | ⟨rfl, -⟩ | rfl | rfl | ⟨rfl, -⟩) <;> simp at hc
  simp [illegalCount_eq (show c < 16 by simp at hc; omega), illegalIn, none_illegal]

theorem illegalCount_illegal_class {c : Nat} (hc : c = 0xB ∨ c = 0xE) : illegalCount c = 4096 := by
  have all_illegal : ∀ kk, IllegalAt c kk := fun kk => .inr (.inr (hc.imp_right .inl))
  simp [illegalCount_eq (show c < 16 by omega), illegalIn, all_illegal]

/-- The classes with legal and illegal words, counted over their 256 low bytes. -/
theorem illegalCounts : illegalCount 0x0 = 4064 ∧ illegalCount 0x8 = 1792 ∧ illegalCount 0xF = 4032 := by
  simp only [illegalCount_eq, Nat.reduceLT]
  decide +kernel

theorem illegalCount_total : ((List.range 16).map illegalCount).sum = 18080 := by
  simp [List.range_succ, illegalCounts, illegalCount_illegal_class, illegalCount_legal_class]

/-! ## Fetching one (60_exceptions.md R161, R166) -/

theorem hostOp_step_illegal {s : State} {w : Word} (hw : fetchWord s = .ok w) (hd : decode w = .error (.illegalWord w)) :
    hostOp .step s = (s, .faulted (.unimplementedInstruction w s.pc)) := by
  rcases Nat.lt_or_ge 4095 (s.pc.toNat + 1) with h | h
  · rw [fetchWord_out h] at hw; cases hw
  · rw [fetchWord_ok h] at hw
    obtain rfl := Except.ok.inj hw
    rw [hostOp, step_illegal h hd, deliver]

/-- Settles O4: class and low byte decide, and with them the counts; a rejected fetched word is the fault's. -/
theorem illegalWordsByClass : Obligations.IllegalWordsByClass := by
  obtain ⟨count0, count8, countF⟩ := illegalCounts
  refine ⟨fun w => ?_, fun w => ?_, count0, count8, illegalCount_illegal_class (.inl rfl),
    illegalCount_illegal_class (.inr rfl), countF, illegalCount_total, fun s w => hostOp_step_illegal⟩
  · rw [decode_illegal_iff, IllegalAt, Nat.mod_mod_of_dvd w.toNat (by decide)]
  · cases h : decode w with
    | ok i => exact .inl ⟨i, rfl⟩
    | error e => rw [decode_error h]; exact .inr rfl

end Sys2Proof
end

section
/-! The word and its fetch (30_encoding.md R70, R72), the words the spec writes out, and that nothing is refused
(R77). -/

namespace Sys2Proof
open Sys2Proof.Machine

/-- Settles O5: every field is a digit group of the word's number. -/
theorem fieldsOfTheWord : Obligations.FieldsOfTheWord := by
  refine fun w => ⟨fieldC_toNat w, fieldX_val w, fieldY_val w, fieldN_val w, fieldKK_toNat w, fieldNNN_toNat w, ?_, ?_, ?_,
    rfl, wordOfBytes_high_low w, zext16_toNat _⟩
  all_goals
    simp only [fieldC_toNat, fieldX_val, fieldY_val, fieldN_val, fieldKK_toNat, fieldNNN_toNat, highByte_toNat]
    omega

/-- Settles O6: fixed words, decoded. -/
theorem wordsOfTheTestVectors : Obligations.WordsOfTheTestVectors := by
  unfold Obligations.WordsOfTheTestVectors
  decide +kernel

/-- Settles O8: two bytes at the pc lie in memory or they do not. -/
theorem fetchIsBigEndianAndBounded : Obligations.FetchIsBigEndianAndBounded := fun _ =>
  ⟨fun h => ⟨_, fetchWord_ok h, wordOfBytes_toNat _ _⟩, fetchWord_out⟩

/-- Of the instructions only RET, CALL and those under the bounds test can fail to complete, and they fault. -/
theorem exec_not_refused (i : Instr) (s : State) (r : Refusal) : exec i s ≠ .refused r := by
  cases i with
  | ret => simp only [exec, execRet, raise]; split_ifs <;> exact nofun
  | call => simp only [exec, execCall, raise]; split_ifs <;> exact nofun
  | drw | ldB | storeRegs | loadRegs => exact withRange_not_refused
  | _ => exact nofun

theorem step_not_refused (s : State) (r : Refusal) : step s ≠ .refused r := by
  unfold step
  split
  · exact nofun
  · exact exec_not_refused _ s r

theorem load_not_refused (img : List Byte) (s : State) (r : Refusal) : load img s ≠ .refused r := by
  unfold load raise
  split <;> exact nofun

/-- Settles O11: a step refuses only what an instruction refuses. -/
theorem nothingIsRefused : Obligations.NothingIsRefused := ⟨exec_not_refused, step_not_refused, load_not_refused⟩

end Sys2Proof
end

section
/-! Control transfer (40_control_flow.md R100 to R108): RET, JP, CALL and the four skips. -/

namespace Sys2Proof.Machine

/-! ## Frames -/

/-- A jump changes the pc alone; a skip is one (10_state.md R25). -/
theorem State.changesOnly_setPc (s : State) (w : Word) : ChangesOnly [] s (s.setPc w) :=
  ⟨fun _ _ => rfl, rfl, ⟨rfl, fun _ => rfl⟩, ⟨rfl, rfl⟩, fun _ => rfl, ⟨fun _ _ => rfl, rfl⟩, rfl⟩

/-- What RET and CALL leave alone: everything but the pc and the call stack. -/
theorem State.keeps_of_pc_stack (s : State) (pc : Word) (sp : Byte) (stk : Vector Word 16) :
    let t := { s with pc, sp, stk }
    KeepsV [] s t ∧ KeepsI s t ∧ KeepsTimers s t ∧ KeepsMem s t ∧ KeepsDisplay s t ∧ KeepsDraws s t :=
  ⟨fun _ _ => rfl, rfl, ⟨rfl, rfl⟩, fun _ => rfl, ⟨fun _ _ => rfl, rfl⟩, rfl⟩

/-! ## RET, JP and CALL -/

/-- Settles O13: the state RET leaves is read off `execRet_next`, its faults off `execRet_fault`. -/
theorem retPopsAndAddsTwo : Obligations.RetPopsAndAddsTwo := by
  refine ⟨decodesAs_row .ret, fun s k hk => ⟨_, execRet_next.2 ⟨k, hk, rfl⟩, ?sp, ?pc, fun _ => rfl,
      s.keeps_of_pc_stack _ _ _⟩, fun s h => execRet_fault.2 (.inl ⟨h, rfl⟩),
    fun s h => execRet_fault.2 (.inr ⟨h, rfl⟩), fun s t _ hpc => step_out (by omega)⟩
  case sp => simp only [State.setPc_sp, State.setSp_sp]; bv_omega
  case pc => simp

/-- Settles O14: a jump to the pc's own value rebuilds the same state. -/
theorem jpSetsPc : Obligations.JpSetsPc := by
  refine ⟨decodesAs_row (.jp 0), fun s nnn => ⟨_, rfl, zext16_toNat nnn, s.changesOnly_setPc _⟩,
    fun s nnn h => ?self, fun s t h => ?top⟩
  case self =>
    have hpc : zext16 nnn = s.pc := BitVec.eq_of_toNat_eq (by rw [zext16_toNat, h])
    exact congrArg (fun w => Host.Outcome.next (s.setPc w)) hpc
  case top =>
    obtain rfl := Host.Outcome.next.inj h
    exact step_out (by simp)

/-- Settles O15: the state CALL leaves is read off `execCall_next`, its fault off `execCall_fault`. -/
theorem callPushesItsOwnAddress : Obligations.CallPushesItsOwnAddress := by
  refine ⟨decodesAs_row (.call 0), fun s nnn k hk => ?_, fun s nnn h => execCall_fault.2 ⟨h, rfl⟩⟩
  have room : s.sp.toNat < 16 := hk ▸ k.isLt
  refine ⟨_, execCall_next.2 ⟨room, rfl⟩, ?slot, ?sp, zext16_toNat nnn, fun j hj => ?others,
    s.keeps_of_pc_stack _ _ _⟩
  case slot => simp [hk]
  case sp => simp only [State.setPc_sp, State.pushPc_sp]; bv_omega
  case others => simp [hk, Fin.val_ne_of_ne hj]

/-- Settles O20: RET at the depth CALL leaves pops the slot CALL wrote. -/
theorem callThenRetResumes : Obligations.CallThenRetResumes := by
  intro s nnn k hk
  obtain ⟨-, call_completes, -⟩ := callPushesItsOwnAddress
  obtain ⟨-, ret_completes, -⟩ := retPopsAndAddsTwo
  obtain ⟨t, hcall, pushed, tsp, -⟩ := call_completes s nnn k hk
  obtain ⟨u, hret, usp, upc, slots, -⟩ := ret_completes t k tsp
  exact ⟨t, u, hcall, hret, by rw [upc, pushed], BitVec.eq_of_toNat_eq (usp.trans hk.symm), pushed,
    (slots k).trans pushed⟩

/-! ## Skips -/

theorem State.skipIf_pc_toNat (s : State) (c : Bool) :
    (s.skipIf c).pc.toNat = (s.pc.toNat + if c then 4 else 2) % 65536 := by
  cases c <;> simp

/-- An instruction that skips on `c` completes, moves the pc by 4 or 2 as the condition `p` has it, and changes nothing
else (R103 to R106). -/
theorem exec_skip {i : Instr} {s : State} {c : Bool} {p : Prop} [Decidable p] (h : exec i s = .next (s.skipIf c))
    (hc : c = true ↔ p) : ∃ t, exec i s = .next t ∧
      t.pc.toNat = (s.pc.toNat + if p then 4 else 2) % 65536 ∧ ChangesOnly [] s t :=
  ⟨_, h, by simp only [State.skipIf_pc_toNat, hc], s.changesOnly_setPc _⟩

/-- A skip taken from one of the last two even addresses leaves memory, and the next fetch faults (R103). -/
theorem exec_skip_top {i : Instr} {s t : State} {c : Bool} (h : exec i s = .next (s.skipIf c)) (hc : c = true)
    (ht : exec i s = .next t) :
    (s.pc = 0xFFC → t.pc = 0x1000 ∧ step t = .fault .outOfBoundsAccess) ∧
    (s.pc = 0xFFE → t.pc = 0x1002 ∧ step t = .fault .outOfBoundsAccess) := by
  obtain rfl := Host.Outcome.next.inj (h.symm.trans ht)
  have taken : (s.skipIf c).pc = s.pc + 4 := by rw [State.skipIf_pc, if_pos hc]
  constructor <;> intro hpc <;> rw [hpc] at taken <;> exact ⟨taken, step_out (by rw [taken]; decide)⟩

/-- Settles O16: SE Vx,kk skips on the comparison of two bytes. -/
theorem skipIfEqualImmediate : Obligations.SkipIfEqualImmediate :=
  ⟨decodesAs_row (.seImm 0 0), fun s x kk => exec_skip rfl (by simp [BitVec.toNat_inj]),
    fun s t x kk ht heq => exec_skip_top rfl (by simpa using heq) ht⟩

/-- Settles O17: SE Vx,kk with the condition inverted. -/
theorem skipIfNotEqualImmediate : Obligations.SkipIfNotEqualImmediate :=
  ⟨decodesAs_row (.sneImm 0 0), fun s x kk => exec_skip rfl (by simp [BitVec.toNat_inj]),
    fun s t x kk ht hne => exec_skip_top rfl (by simpa using hne) ht⟩

/-- Settles O18: SE Vx,kk with a register for the byte. -/
theorem skipIfRegistersEqual : Obligations.SkipIfRegistersEqual :=
  ⟨decodesAs_row (.seReg 0 0), fun s x y => exec_skip rfl (by simp [BitVec.toNat_inj])⟩

/-- Settles O19: SNE Vx,kk with a register for the byte. -/
theorem skipIfRegistersDiffer : Obligations.SkipIfRegistersDiffer :=
  ⟨decodesAs_row (.sneReg 0 0), fun s x y => exec_skip rfl (by simp [BitVec.toNat_inj])⟩

end Sys2Proof.Machine
end

section
/-! Immediate operands (41_immediate.md R110 to R114): the four instructions and the random source. -/

namespace Sys2Proof.Machine

/-! ## The random source (R114) -/

/-- The state after `d` random draws instead of its own count. -/
def State.withDraws (d : Nat) (s : State) : State := { s with draws := d }

/-- The register range is read from memory at `I`, whatever the count of draws is. -/
theorem State.loadRange_withDraws (d : Nat) (s : State) (x : Reg) :
    (s.withDraws d).loadRange x = (s.loadRange x).withDraws d := by
  apply State.ext_readV
  case hv => intro k; rw [State.readV_loadRange]; exact (State.readV_loadRange s x k).symm
  all_goals simp [State.withDraws]

/-- An instruction that is no RND does not read the count of draws: with another count the outcome is the same, but
for that count. -/
theorem exec_withDraws {i : Instr} (s : State) (d : Nat) (hi : ∀ x kk, i ≠ .rnd x kk) :
    exec i (s.withDraws d) = mapNext (State.withDraws d) (exec i s) := by
  cases i with
  | rnd x kk => exact absurd rfl (hi x kk)
  | ret => simp only [exec, execRet, apply_dite (mapNext _)]; rfl
  | call => simp only [exec, execCall, apply_dite (mapNext _)]; rfl
  | drw | ldB | storeRegs => simp only [exec, execDrw, execLdB, execStoreRegs, mapNext_withRange]; rfl
  | loadRegs => simp only [exec, execLoadRegs, mapNext_withRange, State.loadRange_withDraws]; rfl
  | _ => rfl

/-- Settles O60: the count of draws is not read (`exec_withDraws`), and only RND writes it (`Effect.writes_draws`). -/
theorem onlyRndDependsOnTheRandomSource : Obligations.OnlyRndDependsOnTheRandomSource := by
  intro i s d hi
  have same := exec_withDraws s d hi
  refine ⟨fun f hf => ?fault, fun t ht => ⟨?draws, ?next⟩⟩
  case fault => rw [hf] at same; exact same
  case next => rw [ht] at same; exact same
  case draws =>
    by_contra hne
    obtain ⟨x, kk, rnd⟩ := (exec_effect ht).writes_draws hne
    exact hi x kk rnd

/-! ## Frames -/

theorem State.advances_advance (s : State) : Advances s s.advance := BitVec.toNat_add s.pc 2

/-- One register write and the sequential successor change that register and the pc alone. -/
theorem State.changesOnly_setV_advance (s : State) (x : Reg) (b : Byte) : ChangesOnly [x] s (s.setV x b).advance :=
  ⟨fun r hr => by rw [State.readV_advance, State.readV_setV, if_neg (List.ne_of_not_mem_cons hr)], rfl,
    ⟨rfl, fun _ => rfl⟩, ⟨rfl, rfl⟩, fun _ => rfl, ⟨fun _ _ => rfl, rfl⟩, rfl⟩

/-- An instruction that writes one byte to `x` and goes on completes, leaves the byte in `x`, and changes nothing
else. -/
theorem exec_setV_advance {i : Instr} {s : State} {x : Reg} {b : Byte} (h : exec i s = .next (s.setV x b).advance) :
    ∃ t, exec i s = .next t ∧ t.readV x = b ∧ Advances s t ∧ ChangesOnly [x] s t :=
  ⟨_, h, by simp, s.advances_advance, s.changesOnly_setV_advance x b⟩

/-! ## The four instructions -/

/-- Settles O21: LD Vx,kk writes the immediate. -/
theorem loadImmediate : Obligations.LoadImmediate :=
  ⟨decodesAs_row (.ldImm 0 0), fun _ _ _ => exec_setV_advance rfl⟩

/-- Settles O22: ADD Vx,kk writes the sum narrowed to a byte. -/
theorem addImmediateWrapsWithoutFlag : Obligations.AddImmediateWrapsWithoutFlag := by
  refine ⟨decodesAs_row (.addImm 0 0), fun s x kk => ?_⟩
  obtain ⟨t, completes, sum, keeps⟩ :=
    exec_setV_advance (i := .addImm x kk) (s := s) (b := addResult (s.readV x) kk) rfl
  exact ⟨t, completes, by rw [sum, addResult, BitVec.toNat_ofNat], keeps⟩

/-- Settles O23: a 12-bit address has no high bits to put in `I`. -/
theorem loadAddressRegister : Obligations.LoadAddressRegister :=
  ⟨decodesAs_row (.ldI 0), fun s nnn => ⟨_, rfl, zext16_toNat nnn, s.advances_advance, fun _ _ => rfl,
    ⟨rfl, fun _ => rfl⟩, ⟨rfl, rfl⟩, fun _ => rfl, ⟨fun _ _ => rfl, rfl⟩, rfl⟩⟩

/-- Settles O24: RND is one register write of the masked byte, and one more draw. -/
theorem randomIsMasked : Obligations.RandomIsMasked := by
  refine ⟨decodesAs_row (.rnd 0 0), fun s x kk => ?_⟩
  have masked : (rndWith (Config.drawByte s.draws) x kk s).countDraw.readV x = Config.drawByte s.draws &&& kk := by
    simp [rndWith]
  obtain ⟨keepsV, keepsI, keepsStack, keepsTimers, keepsMem, keepsDisplay, -⟩ :=
    s.changesOnly_setV_advance x (Config.drawByte s.draws &&& kk)
  refine ⟨_, rfl, masked, fun b hb => ?clear, fun h0 => ?none, fun hFF => ?all, s.advances_advance, rfl,
    keepsV, keepsI, keepsStack, keepsTimers, keepsMem, keepsDisplay⟩
  case clear => rw [masked, BitVec.getLsbD_and, hb, Bool.and_false]
  case none => rw [masked, h0]; exact BitVec.and_zero
  case all => rw [masked, hFF]; exact BitVec.and_allOnes

end Sys2Proof.Machine
end

section
/-! Register-to-register arithmetic and logic (42_alu.md R120 to R131): the four instructions without a flag, the five
that write one, and VF as an operand of those. -/

namespace Sys2Proof.Machine

/-! ## Results and flags as numbers (R130) -/

theorem flagByte_addFlag (a b : Byte) :
    (flagByte (addFlag a b)).toNat = if a.toNat + b.toNat > 255 then 1 else 0 := by
  simp [addFlag]

theorem flagByte_subFlag (a b : Byte) : (flagByte (subFlag a b)).toNat = if a.toNat > b.toNat then 1 else 0 := by
  simp [subFlag]

/-- The carry of a byte added to itself is its top bit. -/
theorem flagByte_addFlag_self (a : Byte) : (flagByte (addFlag a a)).toNat = a.toNat / 128 := by
  have := a.isLt
  rw [flagByte_addFlag]; split <;> omega

theorem flagByte_subFlag_self (a : Byte) : (flagByte (subFlag a a)).toNat = 0 := by
  rw [flagByte_subFlag, if_neg (Nat.lt_irrefl _)]

/-- The 256 that keeps the model's subtraction in the natural numbers is nothing modulo 256 (R126). -/
theorem subResult_toNat_int (a b : Byte) : ((subResult a b).toNat : Int) = (a.toNat - b.toNat : Int) % 256 := by
  have := b.isLt
  rw [subResult_toNat]; omega

/-! ## What an ALU instruction leaves (R120) -/

/-- `exec_setV_advance`, with the byte given bit by bit. -/
theorem exec_setV_advance_bits {i : Instr} {s : State} {x : Reg} {b : Byte} {g : Nat → Bool}
    (h : exec i s = .next (s.setV x b).advance) (bits : ∀ k, b.getLsbD k = g k) :
    ∃ t, exec i s = .next t ∧ (∀ k, (t.readV x).getLsbD k = g k) ∧ Advances s t ∧ ChangesOnly [x] s t := by
  obtain ⟨t, completes, result, keeps⟩ := exec_setV_advance h
  exact ⟨t, completes, result ▸ bits, keeps⟩

section Flagged
variable {i : Instr} {s : State} {x : Reg} {b : Byte} {f : Bool} {flag : Nat}

theorem State.changesOnly_writeResultFlag (s : State) (x : Reg) (b : Byte) (f : Bool) :
    ChangesOnly [x, Reg.vf] s (s.writeResultFlag x b f) := by
  refine ⟨fun r hr => ?registers, rfl, ⟨rfl, fun _ => rfl⟩, ⟨rfl, rfl⟩, fun _ => rfl, ⟨fun _ _ => rfl, rfl⟩, rfl⟩
  obtain ⟨hx, hvf⟩ : r ≠ x ∧ r ≠ Reg.vf := by simpa using hr
  rw [State.readV_writeResultFlag, if_neg hvf, if_neg hx]

/-- The flag is the last register write, so VF holds it whatever `x` is. -/
theorem readV_vf_of_exec {t : State} (h : exec i s = .next (s.writeResultFlag x b f)) (hf : (flagByte f).toNat = flag)
    (ht : exec i s = .next t) : (t.readV Reg.vf).toNat = flag := by
  obtain rfl := Host.Outcome.next.inj (h.symm.trans ht)
  rw [State.readV_writeResultFlag, if_pos rfl, hf]

/-- The result stays in `x` unless the flag replaces it. -/
theorem readV_result_of_exec {t : State} (h : exec i s = .next (s.writeResultFlag x b f)) (hx : x ≠ Reg.vf)
    (ht : exec i s = .next t) : t.readV x = b := by
  obtain rfl := Host.Outcome.next.inj (h.symm.trans ht)
  rw [State.readV_writeResultFlag, if_neg hx, if_pos rfl]

/-- A flag-writing instruction completes, leaves its result, of the given `value`, in `x` unless that is VF, leaves the
flag in VF, and changes nothing else. -/
theorem exec_writeResultFlag {α : Type} (value : Byte → α) {result : α}
    (h : exec i s = .next (s.writeResultFlag x b f)) (hb : value b = result) (hf : (flagByte f).toNat = flag) :
    ∃ t, exec i s = .next t ∧ (x ≠ Reg.vf → value (t.readV x) = result) ∧ (t.readV Reg.vf).toNat = flag ∧
      Advances s t ∧ ChangesOnly [x, Reg.vf] s t :=
  ⟨_, h, fun hx => by rw [readV_result_of_exec h hx h, hb], readV_vf_of_exec h hf h, BitVec.toNat_add s.pc 2,
    s.changesOnly_writeResultFlag x b f⟩

end Flagged

/-! ## The table of R131 -/

/-- Settles O34: each row is the instruction's flag over the old operands, by `readV_vf_of_exec`; an instruction of VF
with itself has the flag of equal operands. -/
theorem flagWinsOverResultInVf : Obligations.FlagWinsOverResultInVf := by
  intro s x y hx _
  refine ⟨fun t => ?addVfVy, fun t ht => ⟨?sum, ?carry⟩, fun t => ?addVfVf, fun t => ?subVfVy, fun t => ?subnVfVy,
    fun t => ?subVfVf, fun t => ?subnVfVf, fun t => ?shrVf, fun t => ?shlVf⟩
  case addVfVy => exact readV_vf_of_exec rfl (flagByte_addFlag _ _)
  case sum => rw [readV_result_of_exec rfl hx ht, addResult_toNat]
  case carry => exact readV_vf_of_exec rfl (flagByte_addFlag _ _) ht
  case addVfVf => exact readV_vf_of_exec rfl (flagByte_addFlag_self _)
  case subVfVy => exact readV_vf_of_exec rfl (flagByte_subFlag _ _)
  case subnVfVy => exact readV_vf_of_exec rfl (flagByte_subFlag _ _)
  case subVfVf => exact readV_vf_of_exec rfl (flagByte_subFlag_self _)
  case subnVfVf => exact readV_vf_of_exec rfl (flagByte_subFlag_self _)
  case shrVf => exact readV_vf_of_exec rfl (flagByte_shrFlag _)
  case shlVf => exact readV_vf_of_exec rfl (flagByte_shlFlag _)

/-! ## Without a flag (R121 to R124) -/

/-- Settles O25: LD Vx,Vy is one register write. -/
theorem copyRegister : Obligations.CopyRegister :=
  ⟨decodesAs_row (.ldReg 0 0), fun _ _ _ => exec_setV_advance rfl⟩

/-- Settles O26: OR is one register write, and no write of VF. -/
theorem orRegisters : Obligations.OrRegisters :=
  ⟨decodesAs_row (.orReg 0 0), fun _ _ _ => exec_setV_advance_bits rfl fun _ => BitVec.getLsbD_or⟩

/-- Settles O27: AND is one register write, and no write of VF. -/
theorem andRegisters : Obligations.AndRegisters :=
  ⟨decodesAs_row (.andReg 0 0), fun _ _ _ => exec_setV_advance_bits rfl fun _ => BitVec.getLsbD_and⟩

/-- Settles O28: XOR is one register write, and no write of VF. -/
theorem xorRegisters : Obligations.XorRegisters :=
  ⟨decodesAs_row (.xorReg 0 0), fun _ _ _ => exec_setV_advance_bits rfl fun _ => BitVec.getLsbD_xor⟩

/-! ## With a flag (R125 to R129) -/

/-- Settles O29: sum and carry are both over the old operands. -/
theorem addRegistersCarry : Obligations.AddRegistersCarry :=
  ⟨decodesAs_row (.addReg 0 0), fun _ _ _ =>
    exec_writeResultFlag BitVec.toNat rfl (addResult_toNat _ _) (flagByte_addFlag _ _)⟩

/-- Settles O30: the difference is an integer one modulo 256 (`subResult_toNat_int`), the comparison strict. -/
theorem subRegistersStrictFlag : Obligations.SubRegistersStrictFlag :=
  ⟨decodesAs_row (.subReg 0 0), fun _ _ _ =>
    exec_writeResultFlag (fun r => (r.toNat : Int)) rfl (subResult_toNat_int _ _) (flagByte_subFlag _ _)⟩

/-- Settles O31: half the old value, and the bit shifted out (`flagByte_shrFlag`). -/
theorem shiftRightInPlace : Obligations.ShiftRightInPlace :=
  ⟨decodesAs_row (.shr 0), fun _ _ =>
    exec_writeResultFlag BitVec.toNat rfl (shrResult_toNat _) (flagByte_shrFlag _)⟩

/-- Settles O32: SUB with its operands the other way round. -/
theorem subReversedStrictFlag : Obligations.SubReversedStrictFlag :=
  ⟨decodesAs_row (.subnReg 0 0), fun _ _ _ =>
    exec_writeResultFlag (fun r => (r.toNat : Int)) rfl (subResult_toNat_int _ _) (flagByte_subFlag _ _)⟩

/-- Settles O33: twice the old value narrowed to a byte, and the bit shifted out (`flagByte_shlFlag`). -/
theorem shiftLeftInPlace : Obligations.ShiftLeftInPlace :=
  ⟨decodesAs_row (.shl 0), fun _ _ =>
    exec_writeResultFlag BitVec.toNat rfl (shlResult_toNat _) (flagByte_shlFlag _)⟩

end Sys2Proof.Machine
end

section
/-! The display (43_display.md R140 to R147): CLS, DRW, and a sprite drawn twice. -/

namespace Sys2Proof.Machine

/-- Settles O35: CLS is three writes: the dark surface, `DP` and the pc. -/
theorem clearDisplay : Obligations.ClearDisplay :=
  ⟨decodesAs_row .cls, fun s => ⟨_, rfl, Surface.cell_clear, rfl, s.advances_advance, fun _ _ => rfl, rfl,
    ⟨rfl, fun _ => rfl⟩, ⟨rfl, rfl⟩, fun _ => rfl, rfl⟩⟩

/-! ## The cells a sprite covers (R141, R143) -/

/-- The cells the compositor is given are the covered cells of the statements. -/
theorem spriteHits_iff_spriteCovers (s : State) (x y : Reg) (n : Height) (px : Fin 64) (py : Fin 32) :
    SpriteHits (s.readV x) (s.readV y) 0 (s.spriteBytes n) px py ↔ SpriteCovers s x y n px py := by
  simp only [SpriteHits, SpriteCovers, State.spriteBytes_length, State.spriteBytes_getElem, exists_prop, spriteBit,
    Fin.ext_iff, wrapX, wrapY, Nat.zero_add, eq_comm]

theorem exists_spriteBit_iff {b : Byte} : (∃ col < 8, b.getLsbD (7 - col) = true) ↔ b ≠ 0 := by
  constructor
  · rintro ⟨col, -, hbit⟩ rfl
    simp at hbit
  · intro hb
    by_contra! dark
    refine hb (BitVec.eq_of_getLsbD_eq fun k hk => ?_)
    have bit := dark (7 - k) (by omega)
    rw [show 7 - (7 - k) = k by omega] at bit
    simpa using bit

/-- Each 1 bit lands on some cell, so a sprite covers a cell exactly when one of its bytes is not 0. -/
theorem exists_spriteCovers_iff {s : State} {x y : Reg} {n : Height} :
    (∃ px py, SpriteCovers s x y n px py) ↔ ∃ row < n.val, s.readByte (s.base + row) ≠ 0 := by
  constructor
  · rintro ⟨px, py, row, hrow, col, hcol, hbit, -⟩
    exact ⟨row, hrow, exists_spriteBit_iff.1 ⟨col, hcol, hbit⟩⟩
  · rintro ⟨row, hrow, hb⟩
    obtain ⟨col, hcol, hbit⟩ := exists_spriteBit_iff.2 hb
    exact ⟨wrapX (s.readV x) col, wrapY (s.readV y) row, row, hrow, col, hcol, hbit, rfl, rfl⟩

/-! ## The state DRW leaves (R142, R144) -/

theorem flagByte_eq_one_iff (f : Bool) : flagByte f = 1 ↔ f = true := by
  cases f <;> decide

section Drawn
variable (s : State) (x y : Reg) (n : Height)

/-- A covered cell of `s` holds 1. -/
def SpriteCollides : Prop := ∃ px py, SpriteCovers s x y n px py ∧ s.fb.cell px py = true

/-- The compositor flips the covered cells and reports a collision where one of them was 1. -/
theorem drawSprite_covers : Draws (s.fb, false) (drawSprite (s.readV x) (s.readV y) (s.spriteBytes n) s.fb)
    (SpriteCovers s x y n) :=
  (drawSprite_draws _ _ _ s.fb (by rw [State.spriteBytes_length]; omega)).congr (spriteHits_iff_spriteCovers s x y n)

theorem State.drawn_cell_ne_iff (px : Fin 64) (py : Fin 32) :
    (s.drawn x y n).fb.cell px py ≠ s.fb.cell px py ↔ SpriteCovers s x y n px py :=
  (drawSprite_covers s x y n).cell px py

theorem State.drawn_cell_eq {px : Fin 64} {py : Fin 32} (h : ¬ SpriteCovers s x y n px py) :
    (s.drawn x y n).fb.cell px py = s.fb.cell px py :=
  not_not.1 (mt (s.drawn_cell_ne_iff x y n px py).1 h)

theorem State.drawn_vf : (s.drawn x y n).readV Reg.vf =
    flagByte (drawSprite (s.readV x) (s.readV y) (s.spriteBytes n) s.fb).2 := by
  rw [State.readV_drawn, if_pos rfl]

theorem State.drawn_vf_eq_one_iff : (s.drawn x y n).readV Reg.vf = 1 ↔ SpriteCollides s x y n := by
  have hit := (drawSprite_covers s x y n).hit
  simp only [Bool.false_eq_true, false_or] at hit
  rw [State.drawn_vf, flagByte_eq_one_iff, hit, SpriteCollides]

theorem State.drawn_vf_eq_zero (h : ¬ SpriteCollides s x y n) : (s.drawn x y n).readV Reg.vf = 0 := by
  have ne_one := mt (s.drawn_vf_eq_one_iff x y n).1 h
  rw [State.drawn_vf] at ne_one ⊢
  exact (flagByte_eq_zero_or_one _).resolve_right ne_one

theorem State.keepsV_drawn : KeepsV [Reg.vf] s (s.drawn x y n) := fun r hr => by
  rw [State.readV_drawn, if_neg (List.ne_of_not_mem_cons hr)]

end Drawn

/-- Settles O36: in range DRW leaves `State.drawn`, out of range `withRange` faults. -/
theorem drawSpriteXorsAndCollides : Obligations.DrawSpriteXorsAndCollides :=
  ⟨decodesAs_row (.drw 0 0 0),
    fun s x y n fits => ⟨_, execDrw_next.2 ⟨by omega, rfl⟩, s.drawn_cell_ne_iff x y n,
      (s.drawn_vf_eq_one_iff x y n).2, s.drawn_vf_eq_zero x y n, rfl, s.advances_advance, s.keepsV_drawn x y n, rfl,
      ⟨rfl, fun _ => rfl⟩, ⟨rfl, rfl⟩, fun _ => rfl, rfl⟩,
    fun _ _ _ _ hn hout => withRange_out _ ⟨by omega, by omega⟩⟩

/-! ## The same sprite once more (R146) -/

section Twice
variable {s : State} {x y : Reg} {n : Height}
  (hx : (s.drawn x y n).readV x = s.readV x) (hy : (s.drawn x y n).readV y = s.readV y)
include hx hy

/-- With the origin registers as they were, the second drawing covers the cells of the first. -/
theorem spriteCovers_drawn_iff {px : Fin 64} {py : Fin 32} :
    SpriteCovers (s.drawn x y n) x y n px py ↔ SpriteCovers s x y n px py := by
  simp only [SpriteCovers, State.base_drawn, State.readByte_drawn, hx, hy]

theorem spriteCollides_drawn_iff : SpriteCollides (s.drawn x y n) x y n ↔
    ∃ px py, SpriteCovers s x y n px py ∧ (s.drawn x y n).fb.cell px py = true := by
  simp only [SpriteCollides, spriteCovers_drawn_iff hx hy]

/-- XOR twice: a cell changes in both drawings or in neither. -/
theorem State.drawn_drawn_cell (px : Fin 64) (py : Fin 32) :
    ((s.drawn x y n).drawn x y n).fb.cell px py = s.fb.cell px py := by
  have again := spriteCovers_drawn_iff hx hy (px := px) (py := py)
  by_cases covered : SpriteCovers s x y n px py
  · have first := (s.drawn_cell_ne_iff x y n px py).2 covered
    have second := ((s.drawn x y n).drawn_cell_ne_iff x y n px py).2 (again.2 covered)
    exact (Bool.eq_not_of_ne second).trans (Bool.eq_not_of_ne first.symm).symm
  · exact ((s.drawn x y n).drawn_cell_eq x y n (mt again.1 covered)).trans (s.drawn_cell_eq x y n covered)

/-- On a dark surface the first drawing lights every cell it covers, so the second collides if there is one. -/
theorem spriteCollides_drawn_of_dark (dark : ∀ px py, s.fb.cell px py = false)
    (hb : ∃ row < n.val, s.readByte (s.base + row) ≠ 0) : SpriteCollides (s.drawn x y n) x y n := by
  obtain ⟨px, py, covered⟩ := exists_spriteCovers_iff (x := x) (y := y).2 hb
  have changed := (s.drawn_cell_ne_iff x y n px py).2 covered
  exact (spriteCollides_drawn_iff hx hy).2 ⟨px, py, covered, by simpa [dark px py] using changed⟩

end Twice

/-- Settles O37: the second DRW covers the same cells; a sprite of zero bytes covers none. -/
theorem drawTwiceRestores : Obligations.DrawTwiceRestores := by
  intro s t x y n hexec
  obtain ⟨fits, rfl⟩ := execDrw_next.1 hexec
  refine ⟨fun hx hy => ?twice, fun zero => ?zero⟩
  case twice =>
    have collides := (s.drawn x y n).drawn_vf_eq_one_iff x y n
    exact ⟨_, execDrw_next.2 ⟨fits, rfl⟩, State.drawn_drawn_cell hx hy,
      collides.trans (spriteCollides_drawn_iff hx hy),
      fun dark hb => collides.2 (spriteCollides_drawn_of_dark hx hy dark hb)⟩
  case zero =>
    have uncovered : ∀ px py, ¬ SpriteCovers s x y n px py := fun px py h => by
      obtain ⟨row, hrow, hb⟩ := exists_spriteCovers_iff.1 ⟨px, py, h⟩
      exact hb (zero row hrow)
    exact ⟨fun px py => s.drawn_cell_eq x y n (uncovered px py),
      s.drawn_vf_eq_zero x y n fun ⟨px, py, covered, _⟩ => uncovered px py covered, rfl⟩

end Sys2Proof.Machine
end

section
/-! The address register and memory (44_memory_ops.md R150 to R155): ADD I,Vx, the two stores, the range load, and the
round trip of a range. -/

namespace Sys2Proof.Machine

/-- Settles O38: the sum is narrowed to 16 bits, and only `I` and the pc are written. -/
theorem addToAddressRegister : Obligations.AddToAddressRegister :=
  ⟨decodesAs_row (.addI 0), fun s _ => ⟨_, rfl, BitVec.toNat_ofNat _ 16, s.advances_advance, fun _ _ => rfl,
    ⟨rfl, fun _ => rfl⟩, ⟨rfl, rfl⟩, fun _ => rfl, ⟨fun _ _ => rfl, rfl⟩, rfl⟩⟩

/-! ## Stores (R151, R153) -/

section Store
variable (s : State) (a : Nat) (bs : List Byte)

/-- Stored byte `k` is read at `a + k`. -/
theorem State.readByte_writeBytes_add {k : Nat} (h : k < bs.length) :
    (s.writeBytes a bs).readByte (a + k) = bs[k] := by
  have inRange : a ≤ a + k ∧ a + k < a + bs.length := by omega
  rw [State.readByte_writeBytes, dif_pos inRange]
  simp only [Nat.add_sub_cancel_left]

theorem State.keepsMemOutside_writeBytes_advance : KeepsMemOutside a bs.length s (s.writeBytes a bs).advance :=
  fun k hk => by rw [State.readByte_advance, State.readByte_writeBytes, dif_neg hk]

/-- What a store and the sequential successor leave alone: everything but the pc and memory. -/
theorem State.keeps_writeBytes_advance : let t := (s.writeBytes a bs).advance
    Advances s t ∧ KeepsV [] s t ∧ KeepsI s t ∧ KeepsStack s t ∧ KeepsTimers s t ∧ KeepsDisplay s t ∧ KeepsDraws s t :=
  ⟨s.advances_advance, fun _ _ => rfl, rfl, ⟨rfl, fun _ => rfl⟩, ⟨rfl, rfl⟩, ⟨fun _ _ => rfl, rfl⟩, rfl⟩

end Store

/-- The stored digits of a byte, read back as numbers: none of them needs narrowing (R151). -/
theorem State.readByte_writeBytes_bcdDigits (s : State) (a : Nat) (b : Byte) :
    let t := s.writeBytes a (bcdDigits b)
    (t.readByte a).toNat = b.toNat / 100 ∧ (t.readByte (a + 1)).toNat = b.toNat / 10 % 10 ∧
      (t.readByte (a + 2)).toNat = b.toNat % 10 := by
  have hundreds := s.readByte_writeBytes_add a (bcdDigits b) (k := 0) (by simp)
  have tens := s.readByte_writeBytes_add a (bcdDigits b) (k := 1) (by simp)
  have ones := s.readByte_writeBytes_add a (bcdDigits b) (k := 2) (by simp)
  have narrow {d : Nat} (h : d ≤ b.toNat) : (BitVec.ofNat 8 d).toNat = d :=
    Nat.mod_eq_of_lt (Nat.lt_of_le_of_lt h b.isLt)
  exact ⟨hundreds ▸ narrow (by omega), tens ▸ narrow (by omega), ones ▸ narrow (by omega)⟩

/-- Settles O39: in range the digits of R151 are stored, and their weighted sum is the byte (R152); out of range
`withRange` faults. -/
theorem storeDecimalDigits : Obligations.StoreDecimalDigits := by
  refine ⟨decodesAs_row (.ldB 0), fun s x fits => ?_, fun s x out => withRange_out _ ⟨by decide, by omega⟩⟩
  obtain ⟨hundreds, tens, ones⟩ := s.readByte_writeBytes_bcdDigits s.base (s.readV x)
  refine ⟨_, execLdB_next.2 ⟨by omega, rfl⟩, hundreds, tens, ones, ?sum,
    s.keepsMemOutside_writeBytes_advance s.base (bcdDigits (s.readV x)), s.keeps_writeBytes_advance _ _⟩
  case sum => simp only [State.readByte_advance, hundreds, tens, ones]; omega

/-- Settles O40: the stored bytes are those of `execStoreRegs_readByte`; out of range `withRange` faults. -/
theorem storeRegisterRange : Obligations.StoreRegisterRange := by
  refine ⟨decodesAs_row (.storeRegs 0), fun s x fits => ?_,
    fun s x out => withRange_out _ ⟨Nat.succ_ne_zero _, by omega⟩⟩
  have completes : execStoreRegs x s = .next (s.writeBytes s.base (s.rangeBytes x)).advance :=
    execStoreRegs_next.2 ⟨by omega, rfl⟩
  have outside := s.keepsMemOutside_writeBytes_advance s.base (s.rangeBytes x)
  rw [State.rangeBytes_length] at outside
  exact ⟨_, completes, fun k hk => execStoreRegs_readByte completes hk, outside, s.keeps_writeBytes_advance _ _⟩

/-! ## The range load and the round trip (R154, R155) -/

/-- What a range load leaves alone: everything but the pc and the registers. -/
theorem State.keeps_loadRange_advance (s : State) (x : Reg) : let t := (s.loadRange x).advance
    Advances s t ∧ KeepsI s t ∧ KeepsStack s t ∧ KeepsTimers s t ∧ KeepsMem s t ∧ KeepsDisplay s t ∧ KeepsDraws s t := by
  obtain ⟨v, hv⟩ := s.loadRange_eq x
  rw [hv]
  exact ⟨s.advances_advance, rfl, ⟨rfl, fun _ => rfl⟩, ⟨rfl, rfl⟩, fun _ => rfl, ⟨fun _ _ => rfl, rfl⟩, rfl⟩

/-- Settles O41: `State.readV_loadRange` has both the loaded and the kept registers; out of range `withRange` faults. -/
theorem loadRegisterRange : Obligations.LoadRegisterRange := by
  refine ⟨decodesAs_row (.loadRegs 0), fun s x fits => ⟨_, execLoadRegs_next.2 ⟨by omega, rfl⟩,
      fun k hk => ?loaded, fun k hk => ?above, s.keeps_loadRange_advance x⟩,
    fun s x out => withRange_out _ ⟨Nat.succ_ne_zero _, by omega⟩⟩
  case loaded => rw [State.readV_advance, State.readV_loadRange, if_pos hk]
  case above => rw [State.readV_advance, State.readV_loadRange, if_neg (not_le.2 hk)]

/-- Settles O42: the store fitted, so the load from the same `I` does; it reads at `I + k` what the store left there. -/
theorem rangeStoreThenLoadRestores : Obligations.RangeStoreThenLoadRestores := by
  intro s t t' x hstore hi untouched
  have fits := (execStoreRegs_next.1 hstore).1
  have base : t'.base = s.base := congrArg BitVec.toNat hi
  obtain ⟨-, load_completes, -⟩ := loadRegisterRange
  obtain ⟨u, hload, loaded, -⟩ := load_completes t' x (by omega)
  refine ⟨u, hload, fun k hk => ?_⟩
  calc u.readV k
    _ = t'.readByte (s.base + k.val) := by rw [loaded k hk, base]
    _ = t.readByte (s.base + k.val) := untouched _ (Nat.le_add_right _ _) (Nat.add_le_add_left hk _)
    _ = s.readV k := execStoreRegs_readByte hstore hk

end Sys2Proof.Machine
end

section
/-! Faults and the step (60_exceptions.md R160 to R169, R177): when each fault is raised, that it changes nothing, and
what a step that completes has done. -/

namespace Sys2Proof.Machine

/-! ## When an instruction faults (R162 to R164) -/

theorem execDrw_fault {s : State} {x y : Reg} {n : Height} {f : Fault} : execDrw x y n s = .fault f ↔
    n.val ≥ 1 ∧ s.i.toNat + n.val - 1 > 4095 ∧ f = .outOfBoundsAccess := by
  rw [execDrw, withRange_fault, State.base, ← and_assoc]
  exact and_congr_left fun _ => by omega

/-- At least one byte is accessed, so the last address decides. -/
theorem withRange_succ_fault {a k : Nat} {t : State} {f : Fault} : withRange a (k + 1) (.next t) = .fault f ↔
    a + k > 4095 ∧ f = .outOfBoundsAccess := by
  rw [withRange_fault]
  exact and_congr_left fun _ => by omega

theorem execLdB_fault {s : State} {x : Reg} {f : Fault} : execLdB x s = .fault f ↔
    s.i.toNat + 2 > 4095 ∧ f = .outOfBoundsAccess := withRange_succ_fault

theorem execStoreRegs_fault {s : State} {x : Reg} {f : Fault} : execStoreRegs x s = .fault f ↔
    s.i.toNat + x.val > 4095 ∧ f = .outOfBoundsAccess := withRange_succ_fault

theorem execLoadRegs_fault {s : State} {x : Reg} {f : Fault} : execLoadRegs x s = .fault f ↔
    s.i.toNat + x.val > 4095 ∧ f = .outOfBoundsAccess := withRange_succ_fault

/-- The six instructions that can fault, and when: every other one completes in every state. -/
theorem exec_fault_iff {i : Instr} {s : State} {f : Fault} : exec i s = .fault f ↔
    (i = .ret ∧ s.sp.toNat = 0 ∧ f = .stackUnderflow) ∨
    (i = .ret ∧ s.sp.toNat > 16 ∧ f = .stackOverflow) ∨
    (∃ nnn, i = .call nnn ∧ s.sp.toNat ≥ 16 ∧ f = .stackOverflow) ∨
    (∃ x y n, i = .drw x y n ∧ n.val ≥ 1 ∧ s.i.toNat + n.val - 1 > 4095 ∧ f = .outOfBoundsAccess) ∨
    (∃ x, i = .ldB x ∧ s.i.toNat + 2 > 4095 ∧ f = .outOfBoundsAccess) ∨
    (∃ x, i = .storeRegs x ∧ s.i.toNat + x.val > 4095 ∧ f = .outOfBoundsAccess) ∨
    (∃ x, i = .loadRegs x ∧ s.i.toNat + x.val > 4095 ∧ f = .outOfBoundsAccess) := by
  cases i with
  | ret => simpa [exec] using execRet_fault
  | call => simpa [exec] using execCall_fault
  | drw => simpa [exec] using execDrw_fault
  | ldB => simpa [exec] using execLdB_fault
  | storeRegs => simpa [exec] using execStoreRegs_fault
  | loadRegs => simpa [exec] using execLoadRegs_fault
  | _ => exact iff_of_false nofun (by simp)

/-! ## When a step or a load faults (R160, R161, R165) -/

/-- Settles O7: the fetch answers the decoded instruction. -/
theorem stepRunsDecodedInstruction : Obligations.StepRunsDecodedInstruction := fun _ _ inside hd =>
  step_of_fetch (fetchInstr_ok_iff.2 ⟨inside, hd⟩)

/-- The image is too large or it is loaded (70_reset_and_hazards.md R191). -/
theorem load_fault_iff {img : List Byte} {s : State} {f : Fault} :
    load img s = .fault f ↔ img.length > 3584 ∧ f = .programTooLarge := by
  unfold load raise
  split
  · next fits => exact iff_of_false nofun fun h => absurd fits (Nat.not_le.2 h.1)
  · next long => simp [Nat.lt_of_not_le long, eq_comm]

/-- Settles O10: the fetch leaves memory, or the word is rejected, or the decoded instruction faults. -/
theorem faultsExactly : Obligations.FaultsExactly := by
  refine ⟨fun s f => ?_, fun _ _ _ => load_fault_iff⟩
  rcases Nat.lt_or_ge 4095 (s.pc.toNat + 1) with out | inside
  · simp [step_out out, out, Nat.not_le.2 out, eq_comm]
  · cases hd : decode (wordOfBytes (s.readByte s.pc.toNat) (s.readByte (s.pc.toNat + 1))) with
    | error e =>
      obtain rfl := decode_error hd
      simp [step_illegal inside hd, inside, Nat.not_lt.2 inside, hd, eq_comm]
    | ok i =>
      rw [stepRunsDecodedInstruction s i inside hd, exec_fault_iff]
      simp [inside, Nat.not_lt.2 inside, hd]

/-! ## What the host is left with (R166, R169, R177) -/

theorem hostOp_step_fault {s : State} {f : Fault} (h : step s = .fault f) : hostOp .step s = (s, .faulted f) := by
  rw [hostOp, h, deliver]

theorem hostOp_step_next {s t : State} (h : step s = .next t) : hostOp .step s = (t, .ok) := by
  rw [hostOp, h, deliver]

theorem deliver_faulted {s : State} {o : Host.Outcome State Fault Refusal} {f : Fault}
    (h : (deliver s o).2 = .faulted f) : (deliver s o).1 = s := by
  cases o with
  | next => cases h
  | fault | refused => rfl

/-- Settles O12: only a load and a step can fault, and both answer through `deliver`, which keeps the state; the
repeated step then starts from the same one. -/
theorem faultsChangeNothingAndRepeat : Obligations.FaultsChangeNothingAndRepeat := by
  refine ⟨fun op s f h => ?_, fun s f h => ?_⟩
  · cases op with
    | load | step => exact deliver_faulted h
    | tickTimers | isDirty => cases h
    | readPixel | inspect => rfl
  · have kept := hostOp_step_fault h
    exact ⟨kept, by rw [kept, kept]⟩

/-- No instruction clears `DP` (10_state.md R31): CLS and DRW set it, the others leave it. -/
theorem Effect.keeps_dp_set {s t : State} {i : Instr} (e : Effect s i t) (h : s.dp = true) : t.dp = true := by
  cases e with
  | clear | draw => rfl
  | _ => exact h

/-- Settles O9: the two faults before an instruction runs, and what the effect of the one that ran keeps. -/
theorem stepIsFetchDecodeExecute : Obligations.StepIsFetchDecodeExecute := by
  refine fun s => ⟨step_out, fun w inside hw => ?_, fun f => hostOp_step_fault, fun t ht => ?_⟩
  · subst hw
    exact ⟨fun i => stepRunsDecodedInstruction s i inside, fun e => step_illegal inside⟩
  · obtain ⟨i, hfetch, hexec⟩ := step_next_iff.1 ht
    have e := exec_effect hexec
    exact ⟨⟨i, (fetchInstr_ok_iff.1 hfetch).2, hexec⟩, hostOp_step_next ht, e.timers, e.keeps_dp_set⟩

end Sys2Proof.Machine
end

section
/-! The host's other operations (60_exceptions.md R172, R178 to R180): the timer tick and the queries. -/

namespace Sys2Proof.Machine

/-- A timer is one lower and stops at zero, which is subtraction of natural numbers (R172). -/
theorem tickTimer_toNat (t : Byte) : (tickTimer t).toNat = t.toNat - 1 := by
  unfold tickTimer
  split
  · next h => bv_omega
  · next h => omega

/-- Settles O45: the tick writes the two timers only. -/
theorem timerTickLowersBoth : Obligations.TimerTickLowersBoth := fun s =>
  ⟨_, rfl, tickTimer_toNat s.dt, tickTimer_toNat s.st, rfl, fun _ _ => rfl, rfl, ⟨rfl, fun _ => rfl⟩, fun _ => rfl,
    ⟨fun _ _ => rfl, rfl⟩, rfl⟩

/-- Settles O46: the query writes `DP` only, and the second one writes what is there. -/
theorem dirtyQueryConsumesFlag : Obligations.DirtyQueryConsumesFlag := fun s =>
  ⟨s.setDp false, rfl, rfl, rfl, fun _ _ => rfl, fun _ _ => rfl, rfl, ⟨rfl, fun _ => rfl⟩, ⟨rfl, rfl⟩, fun _ => rfl, rfl,
    rfl⟩

theorem readPixel_on (s : State) (px : Fin 64) (py : Fin 32) : readPixel px.val py.val s = .pixel (s.fb.cell px py) :=
  dif_pos ⟨px.isLt, py.isLt⟩

theorem readPixel_off (s : State) {x y : Nat} (h : x > 63 ∨ y > 31) : readPixel x y s = .refused .pixelOffSurface :=
  dif_neg (by omega)

/-- Settles O47: on the surface the cell, which is the entry of the flattened surface (10_state.md R30); off it the
refusal. -/
theorem pixelQueryReads : Obligations.PixelQueryReads :=
  ⟨fun s px py => ⟨congrArg (s, ·) (readPixel_on s px py), s.fb.flat_getElem? px py⟩,
    fun s _ _ h => congrArg (s, ·) (readPixel_off s h)⟩

/-- The accessor of the next instruction answers what the fetch gives. -/
theorem inspect_nextInstruction_iff {s : State} {i : Instr} :
    inspect .nextInstruction s = .nextInstruction i ↔ fetchInstr s = .ok i := by
  unfold inspect
  cases fetchInstr s <;> simp

/-- Settles O48: three accessors read a component; the fourth answers exactly the fetched instruction. -/
theorem introspectionIsReadOnly : Obligations.IntrospectionIsReadOnly := fun s =>
  ⟨rfl, rfl, rfl, fun _ => by simp only [hostOp, Prod.mk.injEq, true_and, inspect_nextInstruction_iff, fetchInstr_ok_iff],
    rfl⟩

end Sys2Proof.Machine
end

section
/-! Load and power-on (70_reset_and_hazards.md R190 to R194): what a load of an image that fits leaves, and the state
before any load. -/

namespace Sys2Proof.Machine

/-! ## What memory holds after a load -/

/-- Byte `k` of the image lands at `0x200 + k`. -/
theorem State.readByte_loaded_image (s : State) {img : List Byte} {k : Nat} (h : k < img.length) :
    (s.loaded img).readByte (0x200 + k) = img[k] := by
  rw [State.readByte, State.loaded_mem, Memory.read_ofImage, dif_pos (by omega)]
  simp only [Nat.add_sub_cancel_left]

/-- Around the image every byte is 0. -/
theorem State.readByte_loaded_outside (s : State) {img : List Byte} {a : Nat} (h : a < 0x200 ∨ 0x200 + img.length ≤ a) :
    (s.loaded img).readByte a = 0 := by
  rw [State.readByte, State.loaded_mem, Memory.read_ofImage, dif_neg (by omega), unlistedByte]

/-! ## Loading an image -/

theorem hostOp_load_fits (s : State) {img : List Byte} (fits : img.length ≤ 3584) :
    hostOp (.load img) s = (s.loaded img, .ok) := by
  rw [hostOp, load, if_pos fits, deliver]

theorem hostOp_load_long (s : State) {img : List Byte} (long : img.length > 3584) :
    hostOp (.load img) s = (s, .faulted .programTooLarge) := by
  rw [hostOp, load_fault_iff.2 ⟨long, rfl⟩, deliver]

/-- Settles O43: the state delivered is `State.loaded`, and its laws give every component. -/
theorem loadResetsEverything : Obligations.LoadResetsEverything :=
  ⟨fun s img fits => ⟨s.loaded img, hostOp_load_fits s fits, s.readV_loaded img, s.loaded_i img, s.loaded_sp img,
      s.readStk_loaded img, s.loaded_dt img, s.loaded_st img, fun _ => s.readByte_loaded_image,
      fun _ => s.readByte_loaded_outside, Surface.cell_clear, s.loaded_dp img, s.loaded_pc img, (inv_loaded s fits).mem⟩,
    fun s _ => hostOp_load_long s⟩

/-- Settles O44: with 3584 bytes the image ends where memory does, and one byte more is too long. -/
theorem loadSizeBoundary : Obligations.LoadSizeBoundary := by
  refine fun s img => ⟨fun full => ⟨s.loaded img, hostOp_load_fits s full.le, fun a above inside => ?image,
    fun a below => s.readByte_loaded_outside (.inl below)⟩, fun long => ?tooLong⟩
  case image =>
    obtain ⟨k, rfl⟩ := Nat.exists_eq_add_of_le above
    have hk : k < img.length := by omega
    rw [s.readByte_loaded_image hk, Nat.add_sub_cancel_left, List.getElem?_eq_getElem hk]
  case tooLong => rw [hostOp_load_long s (by omega)]

/-! ## Before any load -/

/-- Power-on differs from the load of an empty image in the pc alone (R190, R191). -/
theorem State.powerOn_eq_loaded_nil : State.powerOn = (State.powerOn.loaded []).setPc 0 := rfl

/-- The word 0x0000 that an empty memory holds is illegal (30_encoding.md R80, R194). -/
theorem decode_zero : decode 0 = .error (.illegalWord 0) := decode_illegal_iff.2 (by decide)

/-- Settles O49: the components are those of the empty load, and the first fetch reads the illegal word 0x0000. -/
theorem powerOnIsAllZero : Obligations.PowerOnIsAllZero := by
  have fault : step State.powerOn = .fault (.unimplementedInstruction 0 0) :=
    step_illegal (s := State.powerOn) (by decide) decode_zero
  refine ⟨fun r => ?v, rfl, rfl, rfl, fun k => ?stk, rfl, rfl, fun _ => rfl, Surface.cell_clear, rfl, fault⟩
  case v => rw [State.powerOn_eq_loaded_nil, State.readV_setPc, State.readV_loaded]
  case stk => rw [State.powerOn_eq_loaded_nil, State.readStk_setPc, State.readStk_loaded]

end Sys2Proof.Machine
end

section
/-! The end of a run (70_reset_and_hazards.md R196): a JP to its own address. -/

namespace Sys2Proof.Machine

theorem endOfRun_iff {s : State} :
    endOfRun s = true ↔ ∃ nnn, fetchInstr s = .ok (.jp nnn) ∧ nnn.toNat = s.pc.toNat := by
  unfold endOfRun
  split
  · next nnn hfetch => simp [hfetch]
  · next hne => exact iff_of_false nofun fun ⟨nnn, hfetch, _⟩ => hne nnn hfetch

/-- A state that a step leaves as it was is left so by every run. -/
theorem core_run_of_step_self {s : State} (h : step s = .next s) (k : Nat) : Sys2Proof.core.run k s = .next s := by
  induction k with
  | zero => rfl
  | succ k ih => rw [core_run_succ h, ih]

/-- Settles O59: the step runs a JP to the pc's own value, which JP's rule says is no change (40_control_flow.md
R101). -/
theorem endOfRunIsFixed : Obligations.EndOfRunIsFixed := by
  intro s h
  obtain ⟨nnn, hfetch, target⟩ := endOfRun_iff.1 h
  obtain ⟨-, -, jump_to_self, -⟩ := jpSetsPc
  have fixed : step s = .next s := (step_of_fetch hfetch).trans (jump_to_self s nnn target)
  exact ⟨fixed, core_run_of_step_self fixed⟩

end Sys2Proof.Machine
end
